-- ==== Sys2Proof/Word.lean ====
section
/-! DEFINITION. Bytes, the two variants of the engine, and the machine word of a variant. -/

namespace Sys2Proof

/-- A byte, an integer 0..255 (R7). -/
abbrev Byte := BitVec 8

/-- A byte string (R7): byte `s[0]` is the head. -/
abbrev Bytes := List Byte

/-- The two hash functions the engine computes (R1, R4): BLAKE2b and BLAKE2s. -/
inductive Variant where
  /-- 64-bit words. -/
  | B
  /-- 32-bit words. -/
  | S
deriving DecidableEq, Repr, Inhabited

/-- `W`, the bits in a word (R4). -/
abbrev Variant.W : Variant → Nat
  | .B => 64
  | .S => 32

/-- A word of variant `v`: an unsigned integer of `W` bits (R6, R70). Words of the two variants have
different types, so they never mix. -/
abbrev Word (v : Variant) := BitVec v.W

end Sys2Proof
end

