-- ==== Sys2Proof/Config.lean ====
section
/-! DEFINITION. The implementation parameters of rule R4, and the free values: constants without a body,
one for each value the spec leaves unspecified. -/

namespace Sys2Proof

/-- `WB`, the bytes in a word (R4). -/
abbrev Variant.WB : Variant → Nat
  | .B => 8
  | .S => 4

/-- `BS`, the bytes in a block (R4). -/
abbrev Variant.BS : Variant → Nat
  | .B => 128
  | .S => 64

/-- `R`, the rounds of one compression (R4). -/
abbrev Variant.R : Variant → Nat
  | .B => 12
  | .S => 10

/-- `OUTMAX`, the largest digest_length (R4). -/
abbrev Variant.OUTMAX : Variant → Nat
  | .B => 64
  | .S => 32

/-- `KEYMAX`, the largest key_length (R4). -/
abbrev Variant.KEYMAX : Variant → Nat
  | .B => 64
  | .S => 32

/-- `SALTBYTES`, the width of the salt (R4). -/
abbrev Variant.SALTBYTES : Variant → Nat
  | .B => 16
  | .S => 8

/-- `PERSBYTES`, the width of the personalization (R4). -/
abbrev Variant.PERSBYTES : Variant → Nat
  | .B => 16
  | .S => 8

/-- `PBBYTES`, the bytes in the parameter block (R4). -/
abbrev Variant.PBBYTES : Variant → Nat
  | .B => 64
  | .S => 32

/-- `NOBYTES`, the bytes of node_offset in the parameter block (R4). -/
abbrev Variant.NOBYTES : Variant → Nat
  | .B => 8
  | .S => 6

/-- `TDBYTES`, the bytes of the tree descriptor of the NEW payload (R4, R52). -/
abbrev Variant.TDBYTES : Variant → Nat
  | .B => 16
  | .S => 14

/-- FREE VALUE (R16, R23, R123; log 4). What byte `addr` of `buf` reads as while the engine has not
written it since `buf` last became unspecified; `epoch` counts those occasions. -/
opaque Config.freeBufByte (epoch addr : Nat) : Byte

/-- FREE VALUE (R23; log 6). `VARIANT` after a reset of a running engine. -/
opaque Config.freeVariant (epoch : Nat) : Variant

/-- FREE VALUE (R23; log 6). The words after a reset of a running engine: `h[i]` for `i` below 8,
then `t[0]` (`i = 8`) and `t[1]` (`i = 9`). -/
opaque Config.freeWord (epoch : Nat) (v : Variant) (i : Nat) : Word v

/-- FREE VALUE (R23; log 6). `buflen` after a reset of a running engine, within R10's 0..BS. -/
opaque Config.freeBuflen (epoch : Nat) (v : Variant) : Fin (v.BS + 1)

/-- FREE VALUE (R23; log 6). `outlen` after a reset of a running engine. -/
opaque Config.freeOutlen (epoch : Nat) : BitVec 7

/-- FREE VALUE (R23; log 6). `last_node` after a reset of a running engine. -/
opaque Config.freeLastNode (epoch : Nat) : Bool

end Sys2Proof
end

