-- ==== Sys2Proof/Machine/WordOps.lean ====
section
/-! DEFINITION. Block WS: the word operations and the little-endian word serializer (R70 to R81). -/

namespace Sys2Proof

/-- `LE_n(x)`: the `n` bytes of `x`, least significant byte first (R7). -/
def leBytes : Nat → Nat → Bytes
  | 0, _ => []
  | n + 1, x => BitVec.ofNat 8 x :: leBytes n (x / 256)

/-- `le(s)`: the sum of `s[k] << 8k` (R7). -/
def leNat : Bytes → Nat
  | [] => 0
  | b :: s => b.toNat + 256 * leNat s

/-- `zeros(n)` (R7). -/
def zeros (n : Nat) : Bytes := List.replicate n 0#8

/-- `rotr(x, n)` (R71); for `n` of `W` or more it takes `n mod W`, as R71 recommends. -/
def rotr {v : Variant} (x : Word v) (n : Nat) : Word v := x.rotateRight n

/-- `wadd(a, b)`: addition modulo `2^W`, the carry discarded (R72). -/
def wadd {v : Variant} (a b : Word v) : Word v := a + b

/-- `a ^ b` (R73). -/
def wxor {v : Variant} (a b : Word v) : Word v := a ^^^ b

/-- `wnot(a)` (R74). -/
def wnot {v : Variant} (a : Word v) : Word v := ~~~a

/-- `word_to_bytes(x)` (R75). -/
def wordToBytes {v : Variant} (x : Word v) : Bytes := leBytes v.WB x.toNat

/-- `bytes_to_word(s)` (R76). -/
def bytesToWord (v : Variant) (s : Bytes) : Word v := BitVec.ofNat v.W (leNat s)

/-- `words_to_bytes(x[0..n-1])`: word 0 first (R77, R35). -/
def wordsToBytes {v : Variant} (ws : List (Word v)) : Bytes := ws.flatMap wordToBytes

/-- The first `n` words of `bytes_to_words(s)` (R78): word `i` is read from bytes `WB*i .. WB*i+WB-1`. -/
def bytesToWords (v : Variant) : Nat → Bytes → List (Word v)
  | 0, _ => []
  | n + 1, s => bytesToWord v (s.take v.WB) :: bytesToWords v n (s.drop v.WB)

theorem bytesToWords_length (v : Variant) (n : Nat) (s : Bytes) : (bytesToWords v n s).length = n := by
  induction n generalizing s with
  | zero => rfl
  | succ n ih => simp [bytesToWords, ih]

/-- `bytes_to_words(s)` as a register file of `n` words. -/
def loadWords (v : Variant) (n : Nat) (s : Bytes) : Vector (Word v) n :=
  ⟨⟨bytesToWords v n s⟩, bytesToWords_length v n s⟩

end Sys2Proof
end

