-- ==== Sys2Proof/Syntax.lean ====
section
/-! DEFINITION. The commands, one constructor per row of `spec/opcode_table.json`, with their operands. -/

namespace Sys2Proof

/-- The six tree fields of the NEW payload's tree descriptor (R52, R85). `nodeOffset` has 64 bits for
variant B and must stay below `2^48` for variant S (`WellFormed`). -/
structure TreeFields where
  fanout      : Byte
  depth       : Byte
  leafLength  : BitVec 32
  nodeOffset  : BitVec 64
  nodeDepth   : Byte
  innerLength : Byte
deriving DecidableEq, Repr

/-- A command: its header fields and its payload, as R46 to R54 give them. The header's length fields
KLEN, SLEN, PLEN and LEN are the lengths of the byte strings, and TP says whether `tree` is there (R60;
log 10). -/
inductive Instr where
  /-- NEW (R47, R53, R123): variant V, last-node flag LN, DLEN, tree descriptor if TP = 1, key, salt,
  personalization. -/
  | new (v : Variant) (ln : Bool) (dlen : Byte) (tree : Option TreeFields) (key salt pers : Bytes)
  /-- UPDATE (R48, R125): the LEN data bytes. -/
  | update (data : Bytes)
  /-- FINALIZE (R49, R126). -/
  | finalize
  /-- COMPRESS (R50, R54, R127): variant V, final flag F, last-node flag LN, the eight state words, the
  block, the counter's low and high word. -/
  | compress (v : Variant) (f ln : Bool) (h : Vector (Word v) 8) (block : Bytes) (t0 t1 : Word v)
deriving DecidableEq, Repr

/-- The opcodes of R46, without their operands. -/
inductive Op where
  | new
  | update
  | finalize
  | compress
deriving DecidableEq, Repr

end Sys2Proof
end

