-- ==== Sys2Proof/WellFormed.lean ====
section
/-! DEFINITION. Which commands have an encoding: every length fits its header field, and every operand of
fixed width has that width. -/

namespace Sys2Proof

/-- node_offset fits the `NOBYTES` bytes the variant gives it (R52, R85). -/
def TreeFields.fits (v : Variant) (t : TreeFields) : Bool := decide (t.nodeOffset.toNat < 2 ^ (8 * v.NOBYTES))

/-- KLEN, SLEN and PLEN are 8-bit fields (R47), LEN has 32 bits (R48), and the block of COMPRESS has
exactly `BS` bytes (R54). -/
def Instr.wellFormed : Instr → Bool
  | .new v _ _ tree key salt pers =>
      tree.all (TreeFields.fits v) && decide (key.length < 256) && decide (salt.length < 256)
        && decide (pers.length < 256)
  | .update data => decide (data.length < 2 ^ 32)
  | .finalize => true
  | .compress v _ _ _ block _ _ => decide (block.length = v.BS)

/-- The command has an encoding. -/
abbrev WellFormed (i : Instr) : Prop := i.wellFormed = true

end Sys2Proof
end

