-- ==== Sys2Proof/Decode.lean ====
section
/-! DEFINITION. Headers, payloads and the decoder of R45 to R59; the encoder of the same formats; the two
helpers by which the host places an instruction word. -/

namespace Sys2Proof

/-! ## Header fields (R47 to R50, R56) -/

/-- `OP = H[7:0]` (R46). -/
def opField (H : BitVec 64) : Byte := H.extractLsb' 0 8

/-- V, bit 8 of formats N and C: 0 = B, 1 = S (R47, R50). -/
def variantField (H : BitVec 64) : Variant := if H.getLsbD 8 then .S else .B

/-- Bit 9: LN of format N (R47), F of format C (R50). -/
def bit9 (H : BitVec 64) : Bool := H.getLsbD 9

/-- Bit 10: TP of format N (R47), LN of format C (R50). -/
def bit10 (H : BitVec 64) : Bool := H.getLsbD 10

/-- DLEN, bits 23:16 (R47). -/
def dlenField (H : BitVec 64) : Byte := H.extractLsb' 16 8

/-- KLEN, bits 31:24 (R47). -/
def klenField (H : BitVec 64) : Nat := (H.extractLsb' 24 8).toNat

/-- SLEN, bits 39:32 (R47). -/
def slenField (H : BitVec 64) : Nat := (H.extractLsb' 32 8).toNat

/-- PLEN, bits 47:40 (R47). -/
def plenField (H : BitVec 64) : Nat := (H.extractLsb' 40 8).toNat

/-- LEN, bits 63:32 (R48). -/
def lenField (H : BitVec 64) : Nat := (H.extractLsb' 32 32).toNat

/-- The opcode map of R46; every other OP is unassigned. -/
def opOf (H : BitVec 64) : Option Op :=
  if opField H = 0x01#8 then some .new
  else if opField H = 0x02#8 then some .update
  else if opField H = 0x03#8 then some .finalize
  else if opField H = 0x04#8 then some .compress
  else none

/-- Every bit the format marks "reserved, must be 0" is 0 (R47 to R50). -/
def reservedClear (o : Op) (H : BitVec 64) : Bool :=
  match o with
  | .new => decide (H.extractLsb' 11 5 = 0#5) && decide (H.extractLsb' 48 16 = 0#16)
  | .update => decide (H.extractLsb' 8 24 = 0#24)
  | .finalize => decide (H.extractLsb' 8 56 = 0#56)
  | .compress => decide (H.extractLsb' 11 53 = 0#53)

/-- `plen(H)` of a header that is legal for `o` (R51). -/
def payloadLength (o : Op) (H : BitVec 64) : Nat :=
  match o with
  | .new => (if bit10 H then (variantField H).TDBYTES else 0) + klenField H + slenField H + plenField H
  | .update => lenField H
  | .finalize => 0
  | .compress => 8 * (variantField H).WB + (variantField H).BS + 2 * (variantField H).WB

/-- The header value whose bytes, least significant first, open `s` (R45). -/
def headerOf (s : Bytes) : BitVec 64 := BitVec.ofNat 64 (leNat (s.take 8))

/-! ## Payloads (R52 to R54) -/

/-- The tree descriptor's bytes, which are bytes 2 to TDBYTES+1 of the parameter block (R52). -/
def treeBytes (v : Variant) (t : TreeFields) : Bytes :=
  [t.fanout, t.depth] ++ leBytes 4 t.leafLength.toNat ++ leBytes v.NOBYTES t.nodeOffset.toNat
    ++ [t.nodeDepth, t.innerLength]

/-- The tree fields of a descriptor of TDBYTES bytes (R52). -/
def parseTree (v : Variant) (d : Bytes) : TreeFields where
  fanout := d.getD 0 0#8
  depth := d.getD 1 0#8
  leafLength := BitVec.ofNat 32 (leNat ((d.drop 2).take 4))
  nodeOffset := BitVec.ofNat 64 (leNat ((d.drop 6).take v.NOBYTES))
  nodeDepth := d.getD (6 + v.NOBYTES) 0#8
  innerLength := d.getD (7 + v.NOBYTES) 0#8

/-- Payload order of NEW (R53): tree descriptor if TP = 1, key, salt, personalization. -/
def assembleNew (H : BitVec 64) (p : Bytes) : Instr :=
  let v := variantField H
  let td := if bit10 H then v.TDBYTES else 0
  .new v (bit9 H) (dlenField H) (if bit10 H then some (parseTree v (p.take td)) else none)
    ((p.drop td).take (klenField H))
    ((p.drop (td + klenField H)).take (slenField H))
    ((p.drop (td + klenField H + slenField H)).take (plenField H))

/-- Payload of COMPRESS (R54): eight state words, the block, the counter's low and high word. -/
def assembleCompress (H : BitVec 64) (p : Bytes) : Instr :=
  let v := variantField H
  .compress v (bit9 H) (bit10 H) (loadWords v 8 (p.take (8 * v.WB)))
    ((p.drop (8 * v.WB)).take v.BS)
    (bytesToWord v ((p.drop (8 * v.WB + v.BS)).take v.WB))
    (bytesToWord v ((p.drop (8 * v.WB + v.BS + v.WB)).take v.WB))

/-- The command of a legal header and its payload (R58). -/
def assemble (o : Op) (H : BitVec 64) (p : Bytes) : Instr :=
  match o with
  | .new => assembleNew H p
  | .update => .update p
  | .finalize => .finalize
  | .compress => assembleCompress H p

/-! ## The decoder (R57, R58) -/

/-- Why a header is illegal (R57). -/
inductive Illegal where
  /-- OP is 0x00 or 0x05 to 0xFF. -/
  | unassignedOp
  /-- OP is assigned and a reserved bit is 1. -/
  | reservedBit
deriving DecidableEq, Repr

/-- What stands at a command boundary of the byte stream. -/
inductive Decoded where
  /-- A whole command, and the bytes after it. -/
  | command (i : Instr) (rest : Bytes)
  /-- A header that is no command, and the bytes after its eight (R57: no payload is consumed). -/
  | illegal (why : Illegal) (rest : Bytes)
  /-- The stream ends before the command's last byte (R31, R166). -/
  | truncated
deriving DecidableEq, Repr

/-- `n` bytes of the stream have arrived. -/
def arrived : Nat → Bytes → Bool
  | 0, _ => true
  | _ + 1, [] => false
  | n + 1, _ :: s => arrived n s

/-- Decode at a command boundary (R58). It reads no register (R59). -/
def decode (s : Bytes) : Decoded :=
  if arrived 8 s then
    let H := headerOf s
    let pay := s.drop 8
    match opOf H with
    | none => .illegal .unassignedOp pay
    | some o =>
      if reservedClear o H then
        if arrived (payloadLength o H) pay then
          .command (assemble o H (pay.take (payloadLength o H))) (pay.drop (payloadLength o H))
        else .truncated
      else .illegal .reservedBit pay
  else .truncated

/-! ## The encoder (R45 to R54) -/

/-- The V bit of a variant (R47): 0 = B, 1 = S. -/
def variantBit : Variant → Bool
  | .B => false
  | .S => true

/-- Byte 1 of formats N and C: three one-bit fields in bits 0, 1, 2 and zeros above (R47, R50). -/
def flagByte (b0 b1 b2 : Bool) : Byte := BitVec.ofNat 8 (b0.toNat + 2 * b1.toNat + 4 * b2.toNat)

/-- The eight header bytes of a command, by R47 to R50's column "byte on the channel". -/
def encodeHeader : Instr → Bytes
  | .new v ln dlen tree key salt pers =>
      [0x01#8, flagByte (variantBit v) ln tree.isSome, dlen, BitVec.ofNat 8 key.length,
        BitVec.ofNat 8 salt.length, BitVec.ofNat 8 pers.length, 0#8, 0#8]
  | .update data => [0x02#8, 0#8, 0#8, 0#8] ++ leBytes 4 data.length
  | .finalize => [0x03#8, 0#8, 0#8, 0#8, 0#8, 0#8, 0#8, 0#8]
  | .compress v f ln _ _ _ _ =>
      [0x04#8, flagByte (variantBit v) f ln, 0#8, 0#8, 0#8, 0#8, 0#8, 0#8]

/-- The payload bytes of a command (R51 to R54). -/
def encodePayload : Instr → Bytes
  | .new v _ _ tree key salt pers =>
      (match tree with
        | some t => treeBytes v t
        | none => []) ++ key ++ salt ++ pers
  | .update data => data
  | .finalize => []
  | .compress _ _ _ h block t0 t1 =>
      wordsToBytes h.toList ++ block ++ wordToBytes t0 ++ wordToBytes t1

/-- The bytes of a command on the command channel: header, then payload (R31, R45). -/
def encode (i : Instr) : Bytes := encodeHeader i ++ encodePayload i

/-! ## Instruction words as the opcode table numbers them -/

/-- The first eight of the bytes of a table word, zeros where the word is shorter. -/
def tableHeader (nbits w : Nat) : Bytes := (leBytes (nbits / 8) w ++ zeros 8).take 8

/-- How many bytes the command that a table word begins has: 8, and the payload if its header is legal. -/
def tableLength (nbits w : Nat) : Nat :=
  8 + match opOf (headerOf (tableHeader nbits w)) with
    | some o =>
      if reservedClear o (headerOf (tableHeader nbits w)) then
        payloadLength o (headerOf (tableHeader nbits w))
      else 0
    | none => 0

/-- The bytes of the instruction whose first `nbits` bits are `w` and whose other bits are 0: header least
significant byte first (R45), then the payload. -/
def tableBytes (nbits w : Nat) : Bytes :=
  leBytes (nbits / 8) w ++ zeros (tableLength nbits w - nbits / 8)

/-- The instruction the decoder reads from a table word. -/
def decodeTableWord (nbits w : Nat) : Option Instr :=
  match decode (tableBytes nbits w) with
  | .command i _ => some i
  | .illegal _ _ => none
  | .truncated => none

end Sys2Proof
end

