-- ==== Sys2Proof/Machine/State.lean ====
section
/-! DEFINITION. The state of the engine (R10), its two channels (R30 to R32) and its reset input (R160), as
plain data; the reasons a step can stop; the state after reset. -/

namespace Sys2Proof.Machine

/-- `PHASE` (R10, R13). The value 3 is never produced (U11), so it has no constructor. -/
inductive Phase where
  /-- No hasher has been constructed since reset. -/
  | idle
  /-- A hasher is in progress. -/
  | absorbing
  /-- The hasher has delivered its digest. -/
  | finalized
deriving DecidableEq, Repr

/-- STATUS of a response (R55, R140). -/
inductive Status where
  | ok
  | invalidParameter
  | invalidState
  | illegalCommand
deriving DecidableEq, Repr

/-- The three errors (R140 to R143). -/
inductive EngineError where
  /-- NEW with parameters out of range (R141). -/
  | invalidParameter
  /-- UPDATE or FINALIZE outside ABSORBING (R142). -/
  | invalidState
  /-- A header that is no command (R143). -/
  | illegalCommand
deriving DecidableEq, Repr

/-- The block buffer's bytes: (address, byte) cells, addresses strictly rising. An address that is not
listed holds an unspecified byte (R16, R23; log 4). -/
abbrev Memory := List Host.Cell

/-- The registers whose width the variant fixes (R10, R11; log 9), and `epoch`, the model's own counter of
the occasions on which registers became unspecified (log 5). -/
structure Regs (v : Variant) where
  /-- `h[0..7]`, the chaining state (R11). -/
  h : Vector (Word v) 8
  /-- `t[0]`, the counter's low limb (R15). -/
  t0 : Word v
  /-- `t[1]`, the counter's high limb (R15). -/
  t1 : Word v
  /-- `buf[0..BS-1]` (R16). -/
  buf : Memory
  /-- `buflen`, 0..BS (R16). -/
  buflen : Fin (v.BS + 1)
  /-- `outlen` (R17), 7 bits. -/
  outlen : BitVec 7
  /-- `last_node` (R18). -/
  lastNode : Bool
  /-- The model's own: which free values the unspecified registers have. -/
  epoch : Nat
deriving DecidableEq, Repr

/-- `VARIANT` (R14) with the registers of that variant. -/
structure Context where
  variant : Variant
  regs : Regs variant
deriving DecidableEq, Repr

/-- The engine: its context (R10), the bytes waiting on its two channels (R30) and its reset input (R160). -/
structure State where
  /-- `PHASE` (R13). -/
  phase : Phase
  /-- The hasher context: `VARIANT`, `h`, `t`, `buf`, `buflen`, `outlen`, `last_node` (R10). -/
  ctx : Context
  /-- The command channel: bytes that have arrived and that no command has consumed, oldest first (R31). -/
  cmd : Bytes
  /-- The response channel: bytes sent and not yet read by the host, oldest first (R32). -/
  rsp : Bytes
  /-- The reset input is asserted (R160). -/
  resetIn : Bool
deriving DecidableEq, Repr

/-- Why a step has no next state. Both are the engine waiting for bytes (R166, U9): nothing changes, no
response is sent, and the host goes on by putting bytes on the channel. -/
inductive Fault where
  /-- The command channel is empty at a command boundary. Raised by `step` alone. Safe: the model stops where
  the engine waits (R154). -/
  | awaitingCommand
  /-- The command channel ends inside a command. Raised by `step` alone. Safe: the model stops where the
  engine waits (R166). -/
  | truncatedCommand
deriving DecidableEq, Repr

/-- Why an instruction has no meaning. -/
inductive Refusal where
  /-- An arm of `exec` without a meaning. Raised by no arm: all four commands are modelled. Safe. -/
  | notModelled (mnemonic : String)
deriving DecidableEq, Repr

/-- What a meaning answers. -/
abbrev Result := Host.Outcome State Fault Refusal

/-- The registers in State.reset. R23 leaves every one unspecified; these values are the model's (log 3). -/
def Regs.atReset : Regs .B where
  h := #v[0, 0, 0, 0, 0, 0, 0, 0]
  t0 := 0
  t1 := 0
  buf := []
  buflen := 0
  outlen := 1
  lastNode := false
  epoch := 0

/-- The engine right after reset (R23, R160, R161): IDLE, nothing on either channel, the input released. -/
def State.reset : State where
  phase := .idle
  ctx := ⟨.B, Regs.atReset⟩
  cmd := []
  rsp := []
  resetIn := false

end Sys2Proof.Machine
end

