-- ==== Sys2Proof/Machine/Flags.lean ====
section
/-! DEFINITION. The codes and the one-bit pieces of state. The engine has no condition codes: no carry, zero,
sign or overflow flag exists, and no operation writes one as a side effect (R19). -/

namespace Sys2Proof.Machine

/-- The encoding of `PHASE` (R10). -/
def Phase.code : Phase → BitVec 2
  | .idle => 0#2
  | .absorbing => 1#2
  | .finalized => 2#2

/-- The "finalized flag": `PHASE` = FINALIZED (R13, R19). -/
def Phase.finalizedFlag (p : Phase) : Bool := decide (p = .finalized)

/-- The STATUS codes (R55, R140). -/
def Status.code : Status → Byte
  | .ok => 0#8
  | .invalidParameter => 1#8
  | .invalidState => 2#8
  | .illegalCommand => 3#8

/-- The STATUS that reports an error (R140). -/
def EngineError.status : EngineError → Status
  | .invalidParameter => .invalidParameter
  | .invalidState => .invalidState
  | .illegalCommand => .illegalCommand

/-- Working words 14 and 15 are inverted under the final flag `f`, and 15 only if `ln` holds too (R108). -/
def finalInvert {v : Variant} (f ln : Bool) (w : Vector (Word v) 16) : Vector (Word v) 16 :=
  match f, ln with
  | false, _ => w
  | true, false => w.set 14 (~~~w[14])
  | true, true => (w.set 14 (~~~w[14])).set 15 (~~~w[15])

end Sys2Proof.Machine
end

