-- ==== Sys2Proof/Machine/Compression.lean ====
section
/-! DEFINITION. Blocks CB and CS: the constants, G, the round and the compression function (R100 to R111). -/

namespace Sys2Proof.Machine

/-- `IV` (R101). -/
def iv : (v : Variant) → Vector (Word v) 8
  | .B => #v[0x6a09e667f3bcc908#64, 0xbb67ae8584caa73b#64, 0x3c6ef372fe94f82b#64, 0xa54ff53a5f1d36f1#64,
             0x510e527fade682d1#64, 0x9b05688c2b3e6c1f#64, 0x1f83d9abfb41bd6b#64, 0x5be0cd19137e2179#64]
  | .S => #v[0x6a09e667#32, 0xbb67ae85#32, 0x3c6ef372#32, 0xa54ff53a#32,
             0x510e527f#32, 0x9b05688c#32, 0x1f83d9ab#32, 0x5be0cd19#32]

/-- `SIGMA`, the message schedule (R102). -/
def sigma : Vector (Vector (Fin 16) 16) 10 :=
  #v[#v[0, 1, 2, 3, 4, 5, 6, 7, 8, 9, 10, 11, 12, 13, 14, 15],
     #v[14, 10, 4, 8, 9, 15, 13, 6, 1, 12, 0, 2, 11, 7, 5, 3],
     #v[11, 8, 12, 0, 5, 2, 15, 13, 10, 14, 3, 6, 7, 1, 9, 4],
     #v[7, 9, 3, 1, 13, 12, 11, 14, 2, 6, 5, 10, 4, 0, 15, 8],
     #v[9, 0, 5, 7, 2, 4, 10, 15, 14, 1, 11, 12, 6, 8, 3, 13],
     #v[2, 12, 6, 10, 0, 11, 8, 3, 4, 13, 7, 5, 15, 14, 1, 9],
     #v[12, 5, 1, 15, 14, 13, 4, 10, 0, 7, 6, 3, 9, 2, 8, 11],
     #v[13, 11, 7, 14, 12, 1, 3, 9, 5, 0, 15, 4, 8, 6, 2, 10],
     #v[6, 15, 14, 9, 11, 3, 0, 8, 12, 2, 13, 7, 1, 4, 10, 5],
     #v[10, 2, 8, 4, 7, 6, 1, 5, 15, 11, 9, 14, 3, 12, 13, 0]]

/-- The row of SIGMA that round `r` uses: `r mod 10` (R103). -/
def sigmaRow (r : Nat) : Vector (Fin 16) 16 := sigma[r % 10]'(Nat.mod_lt r (by decide))

/-- `ROT = (r1, r2, r3, r4)` (R105). -/
def rot : Variant → Nat × Nat × Nat × Nat
  | .B => (32, 24, 16, 63)
  | .S => (16, 12, 8, 7)

/-- `G(v, a, b, c, d, x, y)` on the working vector `w`, each line using what the lines before it wrote (R104). -/
def mixG (v : Variant) (w : Vector (Word v) 16) (a b c d : Fin 16) (x y : Word v) : Vector (Word v) 16 :=
  let w := w.set a (wadd (wadd w[a] w[b]) x)
  let w := w.set d (rotr (wxor w[d] w[a]) (rot v).1)
  let w := w.set c (wadd w[c] w[d])
  let w := w.set b (rotr (wxor w[b] w[c]) (rot v).2.1)
  let w := w.set a (wadd (wadd w[a] w[b]) y)
  let w := w.set d (rotr (wxor w[d] w[a]) (rot v).2.2.1)
  let w := w.set c (wadd w[c] w[d])
  w.set b (rotr (wxor w[b] w[c]) (rot v).2.2.2)

/-- One application of G in a round: the four working words and the two message words it takes. -/
structure GStep where
  a : Fin 16
  b : Fin 16
  c : Fin 16
  d : Fin 16
  x : Fin 16
  y : Fin 16
deriving DecidableEq, Repr

/-- The four applications of the column pass under schedule row `s` (R106). -/
def columnPass (s : Vector (Fin 16) 16) : List GStep :=
  [⟨0, 4, 8, 12, s[0], s[1]⟩, ⟨1, 5, 9, 13, s[2], s[3]⟩, ⟨2, 6, 10, 14, s[4], s[5]⟩, ⟨3, 7, 11, 15, s[6], s[7]⟩]

/-- The four applications of the diagonal pass under schedule row `s` (R106). -/
def diagonalPass (s : Vector (Fin 16) 16) : List GStep :=
  [⟨0, 5, 10, 15, s[8], s[9]⟩, ⟨1, 6, 11, 12, s[10], s[11]⟩, ⟨2, 7, 8, 13, s[12], s[13]⟩, ⟨3, 4, 9, 14, s[14], s[15]⟩]

/-- The eight applications of round `r`, in order (R106). -/
def roundSteps (r : Nat) : List GStep := columnPass (sigmaRow r) ++ diagonalPass (sigmaRow r)

/-- Apply one G of a round to the working vector, taking its message words from `m`. -/
def applyG (v : Variant) (m w : Vector (Word v) 16) (g : GStep) : Vector (Word v) 16 :=
  mixG v w g.a g.b g.c g.d m[g.x] m[g.y]

/-- `round(v, m, r)` (R106). -/
def mixRound (v : Variant) (m w : Vector (Word v) 16) (r : Nat) : Vector (Word v) 16 :=
  (roundSteps r).foldl (applyG v m) w

/-- The working vector before the first round (R108). -/
def workInit (v : Variant) (h : Vector (Word v) 8) (t0 t1 : Word v) (f ln : Bool) : Vector (Word v) 16 :=
  finalInvert f ln
    #v[h[0], h[1], h[2], h[3], h[4], h[5], h[6], h[7],
       (iv v)[0], (iv v)[1], (iv v)[2], (iv v)[3],
       wxor (iv v)[4] t0, wxor (iv v)[5] t1, (iv v)[6], (iv v)[7]]

/-- The `R` rounds, from round 0 (R108). -/
def allRounds (v : Variant) (m w : Vector (Word v) 16) : Vector (Word v) 16 :=
  (List.range v.R).foldl (mixRound v m) w

/-- The final fold `h'[i] = h[i] ^ v[i] ^ v[i+8]`, for `i` in 0..7 (R108). -/
def foldBack {v : Variant} (h : Vector (Word v) 8) (w : Vector (Word v) 16) : Vector (Word v) 8 :=
  #v[wxor (wxor h[0] w[0]) w[8], wxor (wxor h[1] w[1]) w[9], wxor (wxor h[2] w[2]) w[10],
     wxor (wxor h[3] w[3]) w[11], wxor (wxor h[4] w[4]) w[12], wxor (wxor h[5] w[5]) w[13],
     wxor (wxor h[6] w[6]) w[14], wxor (wxor h[7] w[7]) w[15]]

/-- `compress(V, h, block, t0, t1, f, ln)` (R100, R107, R108); `block` has `BS` bytes. -/
def compress (v : Variant) (h : Vector (Word v) 8) (block : Bytes) (t0 t1 : Word v) (f ln : Bool) :
    Vector (Word v) 8 :=
  foldBack h (allRounds v (loadWords v 16 block) (workInit v h t0 t1 f ln))

end Sys2Proof.Machine
end

