-- ==== Sys2Proof/Machine/Operands.lean ====
section
/-! DEFINITION. Block PB and the operand forms of NEW: validation, defaults, the parameter block, the initial
state and the key block (R52, R85 to R93, R124). -/

namespace Sys2Proof.Machine

/-- `param_valid(V, DLEN, KLEN, SLEN, PLEN)` (R86). Nothing else is checked (R92). -/
def paramValid (v : Variant) (dlen klen slen plen : Nat) : Bool :=
  decide (1 ≤ dlen) && decide (dlen ≤ v.OUTMAX) && decide (klen ≤ v.KEYMAX)
    && (decide (slen = 0) || decide (slen = v.SALTBYTES))
    && (decide (plen = 0) || decide (plen = v.PERSBYTES))

/-- The tree fields when TP = 0 (R52, R85). -/
def defaultTree : TreeFields := ⟨1#8, 1#8, 0#32, 0#64, 0#8, 0#8⟩

/-- An absent salt or personalization is all zero bytes (R87). -/
def orZeros (n : Nat) (s : Bytes) : Bytes := if s.length = 0 then zeros n else s

/-- The reserved zero bytes between inner_length and the salt: bytes 18..31 for B (R88), none for S (R89). -/
def reservedBytes : Variant → Nat
  | .B => 14
  | .S => 0

/-- `param_block` (R88 for B, R89 for S). -/
def paramBlock (v : Variant) (dlen : Byte) (klen : Nat) (tree : TreeFields) (salt pers : Bytes) : Bytes :=
  [dlen, BitVec.ofNat 8 klen] ++ treeBytes v tree ++ zeros (reservedBytes v)
    ++ orZeros v.SALTBYTES salt ++ orZeros v.PERSBYTES pers

/-- `p[0..7]`, the parameter words (R90). -/
def paramWords (v : Variant) (P : Bytes) : Vector (Word v) 8 := loadWords v 8 P

/-- `initial_state(V, P)`: `h0[i] = IV[i] ^ p[i]` (R91). -/
def initialState (v : Variant) (P : Bytes) : Vector (Word v) 8 :=
  let p := paramWords v P
  #v[wxor (iv v)[0] p[0], wxor (iv v)[1] p[1], wxor (iv v)[2] p[2], wxor (iv v)[3] p[3],
     wxor (iv v)[4] p[4], wxor (iv v)[5] p[5], wxor (iv v)[6] p[6], wxor (iv v)[7] p[7]]

/-- What NEW absorbs before any data: `key ‖ zeros(BS - KLEN)` when KLEN > 0, else nothing (R123, R124). -/
def keyBlock (v : Variant) (key : Bytes) : Bytes :=
  if key.length = 0 then [] else key ++ zeros (v.BS - key.length)

end Sys2Proof.Machine
end

