-- ==== Sys2Proof/Machine/Ops.lean ====
section
/-! DEFINITION. The operations over the buffer, the registers and the channels that every command shares:
MemRead and MemWrite (R33), the counter (R121), absorb (R122), the padding and last compression (R126), the
response (R55) and `raise` (R145). -/

namespace Sys2Proof.Machine

/-! ## The buffer's cells -/

/-- The byte listed at an address. -/
def Memory.read? : Memory → Nat → Option Byte
  | [], _ => none
  | (x, b) :: m, a => if a = x then some b else Memory.read? m a

/-- Write one byte, keeping the addresses strictly rising. -/
def Memory.write : Memory → Nat → Byte → Memory
  | [], a, b => [(a, b)]
  | (x, c) :: m, a, b =>
    if a < x then (a, b) :: (x, c) :: m
    else if a = x then (a, b) :: m
    else (x, c) :: Memory.write m a b

/-- Write consecutive bytes from an address up. -/
def Memory.writeBytes : Memory → Nat → Bytes → Memory
  | m, _, [] => m
  | m, a, b :: s => Memory.writeBytes (m.write a b) (a + 1) s

/-- Every address of a cell list is at least `lo` and below `hi`, and they rise strictly. -/
def Memory.rising : Memory → Nat → Nat → Bool
  | [], _, _ => true
  | (x, _) :: m, lo, hi => decide (lo ≤ x) && decide (x < hi) && Memory.rising m (x + 1) hi

/-- The canonical form of a buffer of `bs` bytes: addresses strictly rising and below `bs` (log 4). -/
def Memory.wf (bs : Nat) (m : Memory) : Bool := m.rising 0 bs

/-! ## The registers -/

/-- Byte `a` of `buf`; one the engine has not written since `buf` became unspecified is free (R16; log 4). -/
def Regs.readByte {v : Variant} (r : Regs v) (a : Nat) : Byte :=
  (r.buf.read? a).getD (Config.freeBufByte r.epoch a)

/-- `MemRead(k, n)` (R33). -/
def Regs.memRead {v : Variant} (r : Regs v) (k n : Nat) : Bytes := (List.range n).map fun j => r.readByte (k + j)

/-- `MemWrite(k, len(s), s)` (R33). -/
def Regs.memWrite {v : Variant} (r : Regs v) (k : Nat) (s : Bytes) : Regs v :=
  { r with buf := r.buf.writeBytes k s }

/-- The value `T = t[0] + 2^W * t[1]` of the byte counter (R15). -/
def Regs.counter {v : Variant} (r : Regs v) : Nat := r.t0.toNat + 2 ^ v.W * r.t1.toNat

/-- `counter_add(n)` (R121): addition modulo `2^(2W)` over the two limbs. -/
def Regs.counterAdd {v : Variant} (r : Regs v) (n : Nat) : Regs v :=
  { r with
    t0 := BitVec.ofNat v.W ((r.counter + n) % 2 ^ (2 * v.W) % 2 ^ v.W)
    t1 := BitVec.ofNat v.W ((r.counter + n) % 2 ^ (2 * v.W) / 2 ^ v.W) }

/-- Compress the whole buffer into `h` under the counter as it stands (R122, R126). -/
def Regs.compressBuf {v : Variant} (r : Regs v) (f ln : Bool) : Regs v :=
  { r with h := compress v r.h (r.memRead 0 v.BS) r.t0 r.t1 f ln }

/-- A full buffer's compression inside `absorb`: counter first, then compress, then empty (R122). -/
def Regs.flush {v : Variant} (r : Regs v) : Regs v :=
  { (r.counterAdd v.BS).compressBuf false false with buflen := 0 }

/-- Append one byte to a buffer that is not full (R122). -/
def Regs.push {v : Variant} (r : Regs v) (b : Byte) (room : r.buflen.val < v.BS) : Regs v :=
  { r.memWrite r.buflen [b] with buflen := ⟨r.buflen.val + 1, Nat.succ_lt_succ room⟩ }

theorem flush_room {v : Variant} (r : Regs v) : r.flush.buflen.val < v.BS := by
  cases v
  · exact Nat.zero_lt_succ 127
  · exact Nat.zero_lt_succ 63

/-- One turn of `absorb`'s loop (R122). -/
def Regs.absorbByte {v : Variant} (r : Regs v) (b : Byte) : Regs v :=
  if full : r.buflen.val = v.BS then r.flush.push b (flush_room r)
  else r.push b (Nat.lt_of_le_of_ne (Nat.le_of_lt_succ r.buflen.isLt) full)

/-- `absorb(s)`, byte by byte (R122). -/
def Regs.absorb {v : Variant} (r : Regs v) (s : Bytes) : Regs v := s.foldl Regs.absorbByte r

/-- The zero-padding of FINALIZE: `buf[buflen..BS-1]` become zeros (R126). -/
def Regs.pad {v : Variant} (r : Regs v) : Regs v := r.memWrite r.buflen (zeros (v.BS - r.buflen))

/-- Pad, advance the counter by the true length, compress the last block (R126). -/
def Regs.close {v : Variant} (r : Regs v) : Regs v :=
  (r.pad.counterAdd r.buflen).compressBuf true r.lastNode

/-- The first `outlen` bytes of the serialized state (R126). -/
def Regs.digest {v : Variant} (r : Regs v) : Bytes := (wordsToBytes r.h.toList).take r.outlen.toNat

/-- The registers NEW writes before it absorbs the key block (R123). `buf` becomes unspecified: no cell is
listed, and the next epoch's free values stand for it (log 4, log 5). -/
def Regs.fresh (v : Variant) (ln : Bool) (dlen : Byte) (P : Bytes) (epoch : Nat) : Regs v where
  h := initialState v P
  t0 := 0#v.W
  t1 := 0#v.W
  buf := []
  buflen := 0
  outlen := dlen.setWidth 7
  lastNode := ln
  epoch := epoch

/-! ## The channels and the state -/

/-- The bytes of a response: STATUS, RLEN, two zero bytes, the payload (R55). -/
def responseBytes (st : Status) (payload : Bytes) : Bytes :=
  leBytes 4 (st.code.toNat + 256 * payload.length) ++ payload

/-- Send one response (R32, R55). -/
def State.respond (s : State) (st : Status) (payload : Bytes) : State :=
  { s with rsp := s.rsp ++ responseBytes st payload }

/-- `raise E`, the one way an error is reported (R145): no register changes, the payload has been consumed,
the response has no payload. There is no return from it: the engine takes the next command (R146). -/
def State.raise (s : State) (e : EngineError) : State := s.respond e.status []

/-- Replace the registers of the context, the variant unchanged. -/
def State.setRegs (s : State) (r : Regs s.ctx.variant) : State := { s with ctx := ⟨s.ctx.variant, r⟩ }

/-- Install a new hasher: `VARIANT`, every register, and `PHASE` = ABSORBING (R123). -/
def State.install (s : State) (v : Variant) (r : Regs v) : State := { s with phase := .absorbing, ctx := ⟨v, r⟩ }

/-- End the hasher: `PHASE` = FINALIZED (R126). -/
def State.endHasher (s : State) : State := { s with phase := .finalized }

end Sys2Proof.Machine
end

