-- ==== Sys2Proof/Machine/CompressCommand.lean ====
section
/-! DEFINITION. The meaning of COMPRESS (R127): blocks CB and CS on operands the host supplies. -/

namespace Sys2Proof.Machine

/-- COMPRESS (R127): the context is neither read nor written, in any phase. -/
def execCompress (v : Variant) (f ln : Bool) (h : Vector (Word v) 8) (block : Bytes) (t0 t1 : Word v) (s : State) :
    Result :=
  .next (s.respond .ok (wordsToBytes (compress v h block t0 t1 f ln).toList))

end Sys2Proof.Machine
end

