-- ==== Sys2Proof/Machine/HasherCommands.lean ====
section
/-! DEFINITION. The meanings of NEW, UPDATE and FINALIZE (block SM, R120 to R126). -/

namespace Sys2Proof.Machine

/-- NEW (R123, R124). -/
def execNew (v : Variant) (ln : Bool) (dlen : Byte) (tree : Option TreeFields) (key salt pers : Bytes) (s : State) :
    Result :=
  if paramValid v dlen.toNat key.length salt.length pers.length then
    let P := paramBlock v dlen key.length (tree.getD defaultTree) salt pers
    let r := Regs.fresh v ln dlen P (s.ctx.regs.epoch + 1)
    .next ((s.install v (r.absorb (keyBlock v key))).respond .ok [])
  else .next (s.raise .invalidParameter)

/-- UPDATE (R125). -/
def execUpdate (data : Bytes) (s : State) : Result :=
  if s.phase = .absorbing then .next ((s.setRegs (s.ctx.regs.absorb data)).respond .ok [])
  else .next (s.raise .invalidState)

/-- FINALIZE (R126). -/
def execFinalize (s : State) : Result :=
  if s.phase = .absorbing then
    .next ((s.setRegs s.ctx.regs.close).endHasher.respond .ok s.ctx.regs.close.digest)
  else .next (s.raise .invalidState)

end Sys2Proof.Machine
end

