-- ==== Sys2Proof/Machine/Dispatch.lean ====
section
/-! DEFINITION. What each command does: one arm per constructor, one meaning per arm. -/

namespace Sys2Proof.Machine

def exec (i : Instr) (s : State) : Host.Outcome State Fault Refusal :=
  match i with
  | .new v ln dlen tree key salt pers => Sys2Proof.Machine.execNew v ln dlen tree key salt pers s
  | .update data => Sys2Proof.Machine.execUpdate data s
  | .finalize => Sys2Proof.Machine.execFinalize s
  | .compress v f ln h block t0 t1 => Sys2Proof.Machine.execCompress v f ln h block t0 t1 s

end Sys2Proof.Machine
end

