-- ==== Sys2Proof/Machine/Reset.lean ====
section
/-! DEFINITION. A reset of a running engine (R23, R160, R161). -/

namespace Sys2Proof.Machine

/-- The registers after a reset of a running engine: all unspecified, so all free (R23; log 6). -/
def Regs.unspecified (v : Variant) (epoch : Nat) : Regs v where
  h := #v[Config.freeWord epoch v 0, Config.freeWord epoch v 1, Config.freeWord epoch v 2, Config.freeWord epoch v 3,
          Config.freeWord epoch v 4, Config.freeWord epoch v 5, Config.freeWord epoch v 6, Config.freeWord epoch v 7]
  t0 := Config.freeWord epoch v 8
  t1 := Config.freeWord epoch v 9
  buf := []
  buflen := Config.freeBuflen epoch v
  outlen := Config.freeOutlen epoch
  lastNode := Config.freeLastNode epoch
  epoch := epoch

/-- What an asserted reset input does: `PHASE` = IDLE, every other register of the context unspecified; no
command is taken and no response is sent, and the bytes on the channel are the platform's to flush (R160). -/
def State.holdReset (s : State) : State :=
  { s with
    phase := .idle
    ctx := ⟨Config.freeVariant (s.ctx.regs.epoch + 1),
      Regs.unspecified (Config.freeVariant (s.ctx.regs.epoch + 1)) (s.ctx.regs.epoch + 1)⟩ }

end Sys2Proof.Machine
end

