-- ==== Sys2Proof/Machine/Fetch.lean ====
section
/-! DEFINITION. What the engine finds when it looks at its reset input and its command channel (R31, R40, R57,
R58, R160, R166). -/

namespace Sys2Proof.Machine

/-- What the next step is about. -/
inductive Fetched where
  /-- The reset input is asserted. -/
  | held
  /-- The engine waits for bytes. -/
  | waiting (why : Fault)
  /-- A header that is no command; its eight bytes are gone from the channel. -/
  | illegal (s : State)
  /-- A whole command; its header and payload are gone from the channel. -/
  | run (i : Instr) (s : State)

/-- Look at the reset input, then take one command from the channel if a whole one is there. -/
def fetch (s : State) : Fetched :=
  if s.resetIn then .held
  else if s.cmd = [] then .waiting .awaitingCommand
  else
    match decode s.cmd with
    | .command i rest => .run i { s with cmd := rest }
    | .illegal _ rest => .illegal { s with cmd := rest }
    | .truncated => .waiting .truncatedCommand

end Sys2Proof.Machine
end

