-- ==== Sys2Proof/Machine/Step.lean ====
section
/-! DEFINITION. One step of the engine: one command, or one illegal header, executed whole (R9, R37, R40). -/

namespace Sys2Proof.Machine

/-- One step. A held reset leaves the reset state (R160), an illegal header is answered (R57, R143), a whole
command is executed; a channel without a whole command gives no next state (R166). -/
def step (s : State) : Host.Outcome State Fault Refusal :=
  match fetch s with
  | .held => .next s.holdReset
  | .waiting why => .fault why
  | .illegal s' => .next (s'.raise .illegalCommand)
  | .run i s' => exec i s'

/-- `s` with the instruction of a table word at the head of the command channel and the reset input released,
so that the next step runs it (log 8). -/
def State.withFetchWord (s : State) (nbits w : Nat) : State :=
  { s with cmd := tableBytes nbits w ++ s.cmd, resetIn := false }

end Sys2Proof.Machine
end

