-- ==== Sys2Proof/Machine/HostPort.lean ====
section
/-! DEFINITION. What the outside world can do to the engine (R31, R32, R160, R167). No step performs these. -/

namespace Sys2Proof.Machine

/-- The host puts bytes on the command channel, after those already there (R31). -/
def State.hostSend (s : State) (bytes : Bytes) : State := { s with cmd := s.cmd ++ bytes }

/-- The host takes the oldest `n` bytes from the response channel (R32, R167). -/
def State.hostTake (s : State) (n : Nat) : Bytes × State := (s.rsp.take n, { s with rsp := s.rsp.drop n })

/-- The platform flushes what is left on the command channel, as part of a reset (R160): with the input released a
flush does nothing, so that reset is the only way out of a truncated command (R166, D3). DESIGN CHOICE: the flush
comes while the input is asserted, not after its release, and it removes every byte of the channel, those of later
commands included (log 20). -/
def State.hostFlush (s : State) : State := if s.resetIn then { s with cmd := [] } else s

/-- The reset input is asserted (R160). -/
def State.hostAssertReset (s : State) : State := { s with resetIn := true }

/-- The reset input is released: the context holds the reset values (R160; log 18). An input that is not asserted
has no release. -/
def State.hostReleaseReset (s : State) : State := if s.resetIn then { s.holdReset with resetIn := false } else s

end Sys2Proof.Machine
end

