-- ==== Sys2Proof/Machine/Oneshot.lean ====
section
/-! DEFINITION. The pseudo-command ONESHOT (R61, R128): what a host sends for it, and its result. -/

namespace Sys2Proof.Machine

/-- Cut data into pieces of at most `k` bytes; `fuel` bounds their number. -/
def pieces (k : Nat) : Nat → Bytes → List Bytes
  | 0, _ => []
  | fuel + 1, d => if d.length = 0 then [] else d.take k :: pieces k fuel (d.drop k)

/-- The most bytes one UPDATE carries (R48). -/
def updateMax : Nat := 2 ^ 32 - 1

/-- Execute commands in order, each on the state the one before it left (R40). -/
def execAll : List Instr → State → Result
  | [], s => .next s
  | i :: rest, s =>
    match exec i s with
    | .next s' => execAll rest s'
    | .fault e => .fault e
    | .refused e => .refused e

/-- The UPDATEs of ONESHOT (R61). R61 allows any pieces of at most `2^32-1` bytes; DESIGN CHOICE: the pieces have
exactly `updateMax` bytes, the last one the remainder, and empty data has none (log 15). -/
def oneshotUpdates (data : Bytes) : List Instr := (pieces updateMax data.length data).map Instr.update

/-- The bytes the engine sent between two states. -/
def responseSince (s s' : State) : Bytes := s'.rsp.drop s.rsp.length

/-- ONESHOT (R61): NEW; if its response is OK then the UPDATEs and FINALIZE, else nothing more. -/
def oneshot (v : Variant) (dlen : Byte) (key data : Bytes) (s : State) : Result :=
  match exec (.new v false dlen none key [] []) s with
  | .next s' =>
    if responseSince s s' = responseBytes .ok [] then execAll (oneshotUpdates data ++ [.finalize]) s'
    else .next s'
  | .fault e => .fault e
  | .refused e => .refused e

end Sys2Proof.Machine
end

