-- ==== Sys2Proof/Safety.lean ====
section
/-! DEFINITION. What statements about runs are made of: the invariant of R16, R17 and R25, equality up to what the
spec leaves unspecified (R16, R23, R24), and the closed form of a digest (R130). -/

namespace Sys2Proof.Machine

/-! ## The invariant -/

/-- What R16, R17 and R25 say of the registers while a hasher is in progress: the digest length is legal,
every byte of `buf` below `buflen` has been written, the counter counts whole blocks, and an empty buffer
means that nothing has been absorbed. -/
def Regs.live {v : Variant} (r : Regs v) : Prop :=
  1 ≤ r.outlen.toNat ∧ r.outlen.toNat ≤ v.OUTMAX ∧
  (∀ k, k < r.buflen.val → (r.buf.read? k).isSome = true) ∧
  r.counter % v.BS = 0 ∧ (r.buflen.val = 0 → r.counter = 0)

/-- The invariant: the buffer's cells are in canonical form, and a hasher in progress is live. -/
def State.Inv (s : State) : Prop :=
  s.ctx.regs.buf.wf s.ctx.variant.BS = true ∧ (s.phase = .absorbing → s.ctx.regs.live)

/-! ## Equality up to what is unspecified -/

/-- Two register sets agree on everything a command may read while a hasher is in progress: all registers, and
of `buf` the bytes below `buflen` (R16). -/
def Regs.Agree {v : Variant} (r q : Regs v) : Prop :=
  r.h = q.h ∧ r.t0 = q.t0 ∧ r.t1 = q.t1 ∧ r.buflen = q.buflen ∧ r.outlen = q.outlen ∧ r.lastNode = q.lastNode ∧
  ∀ k, k < r.buflen.val → r.buf.read? k = q.buf.read? k

/-- Two contexts are of one variant and agree. -/
def Context.Agree (c d : Context) : Prop :=
  ∃ (v : Variant) (r q : Regs v), c = ⟨v, r⟩ ∧ d = ⟨v, q⟩ ∧ r.Agree q

/-- Two states that differ only in what the spec leaves unspecified: everything but the context is equal, and
the contexts agree while a hasher is in progress (R16, R23). -/
def State.Agree (s t : State) : Prop :=
  s.phase = t.phase ∧ s.cmd = t.cmd ∧ s.rsp = t.rsp ∧ s.resetIn = t.resetIn ∧
  (s.phase = .absorbing → s.ctx.Agree t.ctx)

/-- Two results are of one kind, and agree. -/
def Result.Agree : Result → Result → Prop
  | .next s, .next t => s.Agree t
  | .fault e, .fault d => e = d
  | .refused e, .refused d => e = d
  | _, _ => False

/-! ## The opcode table (R57) -/

/-- `mask` and `match` of each row of `spec/opcode_table.json` (R57). -/
def tableRow : Op → BitVec 64 × BitVec 64
  | .new => (0xFFFF00000000F8FF#64, 0x0000000000000001#64)
  | .update => (0x00000000FFFFFFFF#64, 0x0000000000000002#64)
  | .finalize => (0xFFFFFFFFFFFFFFFF#64, 0x0000000000000003#64)
  | .compress => (0xFFFFFFFFFFFFF8FF#64, 0x0000000000000004#64)

/-- A header matches a row: `H & mask = match` (R57). -/
abbrev matchesRow (o : Op) (H : BitVec 64) : Prop := H &&& (tableRow o).1 = (tableRow o).2

/-- The conditions of R86, as numbers. -/
abbrev ParametersInRange (v : Variant) (dlen klen slen plen : Nat) : Prop :=
  (1 ≤ dlen ∧ dlen ≤ v.OUTMAX) ∧ klen ≤ v.KEYMAX ∧ (slen = 0 ∨ slen = v.SALTBYTES) ∧ (plen = 0 ∨ plen = v.PERSBYTES)

/-- A command is a NEW. -/
def isNew : Instr → Bool
  | .new _ _ _ _ _ _ _ => true
  | .update _ => false
  | .finalize => false
  | .compress _ _ _ _ _ _ _ => false

/-- A command works only on a hasher in progress: UPDATE and FINALIZE. -/
def needsHasher : Instr → Bool
  | .new _ _ _ _ _ _ _ => false
  | .update _ => true
  | .finalize => true
  | .compress _ _ _ _ _ _ _ => false

/-- The bytes of a response: the STATUS byte, RLEN, two zero bytes, the payload (R55). -/
def responseOf (status : Byte) (payload : Bytes) : Bytes :=
  [status, BitVec.ofNat 8 payload.length, 0#8, 0#8] ++ payload

/-! ## The closed form of a digest (R130) -/

/-- The low limb of a counter value taken modulo `2^(2W)`. -/
def limbLow (v : Variant) (n : Nat) : Word v := BitVec.ofNat v.W (n % 2 ^ (2 * v.W) % 2 ^ v.W)

/-- The high limb of a counter value taken modulo `2^(2W)`. -/
def limbHigh (v : Variant) (n : Nat) : Word v := BitVec.ofNat v.W (n % 2 ^ (2 * v.W) / 2 ^ v.W)

/-- Block `j` of `D`, counted from 1: bytes `BS*(j-1) .. BS*j-1`. -/
def blockOf (v : Variant) (D : Bytes) (j : Nat) : Bytes := (D.drop (v.BS * (j - 1))).take v.BS

/-- The chaining state after the blocks 1..m of `D`, block `j` compressed with counter `c + BS*j` and `f = 0`. -/
def chain (v : Variant) (c : Nat) (h0 : Vector (Word v) 8) (D : Bytes) (m : Nat) : Vector (Word v) 8 :=
  (List.range m).foldl
    (fun h j => compress v h (blockOf v D (j + 1)) (limbLow v (c + v.BS * (j + 1))) (limbHigh v (c + v.BS * (j + 1)))
      false false)
    h0

/-- `N = ceil(n / BS)`, the number of blocks of `n` bytes. -/
def blockCount (v : Variant) (n : Nat) : Nat := (n + v.BS - 1) / v.BS

/-- The state whose serialization the digest is cut from (R130). -/
def closedState (v : Variant) (h0 : Vector (Word v) 8) (ln : Bool) (D : Bytes) : Vector (Word v) 8 :=
  if D.length = 0 then compress v h0 (zeros v.BS) 0#v.W 0#v.W true ln
  else
    let last := D.drop (v.BS * (blockCount v D.length - 1))
    compress v (chain v 0 h0 D (blockCount v D.length - 1)) (last ++ zeros (v.BS - last.length))
      (limbLow v D.length) (limbHigh v D.length) true ln

/-- The digest of `D` by R130. -/
def closedDigest (v : Variant) (h0 : Vector (Word v) 8) (outlen : Nat) (ln : Bool) (D : Bytes) : Bytes :=
  (wordsToBytes (closedState v h0 ln D).toList).take outlen

end Sys2Proof.Machine
end

