-- ==== Sys2Proof/Certificates/Slice0/Obligations.lean ====
section
/-! DEFINITION. The statements about the engine, family by family in the order of the spec's files. -/

open Sys2Proof Sys2Proof.Machine

/-! ## Encoding (30_encoding.md) -/

/-- R62: the worked encodings, each with what it decodes to, whatever the key and the payload are, and the two
response headers. -/
def Obligations.WorkedEncodings : Prop :=
  decode [0x01#8, 0x00#8, 0x40#8, 0x00#8, 0x00#8, 0x00#8, 0x00#8, 0x00#8]
      = .command (.new .B false 64#8 none [] [] []) [] ∧
  (∀ key : Bytes, key.length = 32 →
    encode (.new .S false 32#8 none key [] [])
        = [0x01#8, 0x01#8, 0x20#8, 0x20#8, 0x00#8, 0x00#8, 0x00#8, 0x00#8] ++ key ∧
      decode ([0x01#8, 0x01#8, 0x20#8, 0x20#8, 0x00#8, 0x00#8, 0x00#8, 0x00#8] ++ key)
        = .command (.new .S false 32#8 none key [] []) []) ∧
  decode [0x02#8, 0x00#8, 0x00#8, 0x00#8, 0x03#8, 0x00#8, 0x00#8, 0x00#8, 0x61#8, 0x62#8, 0x63#8]
      = .command (.update [0x61#8, 0x62#8, 0x63#8]) [] ∧
  decode [0x03#8, 0x00#8, 0x00#8, 0x00#8, 0x00#8, 0x00#8, 0x00#8, 0x00#8] = .command .finalize [] ∧
  (∀ (h : Vector (Word .S) 8) (block : Bytes) (t0 t1 : Word .S),
    (encode (.compress .S true false h block t0 t1)).take 8
      = [0x04#8, 0x03#8, 0x00#8, 0x00#8, 0x00#8, 0x00#8, 0x00#8, 0x00#8]) ∧
  (∀ payload : Bytes, payload.length = 104 → ∃ (h : Vector (Word .S) 8) (block : Bytes) (t0 t1 : Word .S),
    decode ([0x04#8, 0x03#8, 0x00#8, 0x00#8, 0x00#8, 0x00#8, 0x00#8, 0x00#8] ++ payload)
      = .command (.compress .S true false h block t0 t1) []) ∧
  (∀ digest : Bytes, digest.length = 64 →
    responseBytes .ok digest = [0x00#8, 0x40#8, 0x00#8, 0x00#8] ++ digest) ∧
  responseBytes .invalidState [] = [0x02#8, 0x00#8, 0x00#8, 0x00#8]

/-- R45 to R54, R58: what the encoder writes for a command that has an encoding, the decoder reads back whole,
whatever follows it on the channel. -/
def Obligations.DecodeOfEncode : Prop :=
  ∀ (i : Instr) (rest : Bytes), WellFormed i → decode (encode i ++ rest) = .command i rest

/-- R58: whatever the decoder reads is a command that has an encoding, and the bytes it consumed are that
encoding. -/
def Obligations.EncodeOfDecode : Prop :=
  ∀ (s : Bytes) (i : Instr) (rest : Bytes), decode s = .command i rest → WellFormed i ∧ encode i ++ rest = s

/-- R46 to R50, R57: a header matches a command's row of the opcode table exactly when its OP is the command's and
every bit the format reserves is 0; the decoder takes just these headers for the command; at most one row matches,
and none if OP is 0x00 or 0x05 to 0xFF. -/
def Obligations.LegalHeaderIsTableRow : Prop :=
  (∀ H : BitVec 64, matchesRow .new H ↔
    H.extractLsb' 0 8 = 0x01#8 ∧ H.extractLsb' 11 5 = 0#5 ∧ H.extractLsb' 48 16 = 0#16) ∧
  (∀ H : BitVec 64, matchesRow .update H ↔ H.extractLsb' 0 8 = 0x02#8 ∧ H.extractLsb' 8 24 = 0#24) ∧
  (∀ H : BitVec 64, matchesRow .finalize H ↔ H.extractLsb' 0 8 = 0x03#8 ∧ H.extractLsb' 8 56 = 0#56) ∧
  (∀ H : BitVec 64, matchesRow .compress H ↔ H.extractLsb' 0 8 = 0x04#8 ∧ H.extractLsb' 11 53 = 0#53) ∧
  (∀ (H : BitVec 64) (o : Op), (opOf H = some o ∧ reservedClear o H = true) ↔ matchesRow o H) ∧
  (∀ (H : BitVec 64) (o o' : Op), matchesRow o H → matchesRow o' H → o = o') ∧
  (∀ (H : BitVec 64) (o : Op), H.toNat % 256 = 0 ∨ 5 ≤ H.toNat % 256 → ¬ matchesRow o H)

/-- R31, R51, R58: where the header matches no row, the decoder consumes eight bytes and finds no command; where
it matches one, it finds a command exactly when `plen` further bytes have arrived, and consumes just those; `plen` is R51's value of the
command's header bits. -/
def Obligations.DecodeConsumesWhatTheHeaderSays : Prop :=
  ∀ (hd rest : Bytes), hd.length = 8 →
    ((∀ o, ¬ matchesRow o (headerOf hd)) → ∃ why, decode (hd ++ rest) = .illegal why rest) ∧
    (∀ o, matchesRow o (headerOf hd) →
      (rest.length < payloadLength o (headerOf hd) → decode (hd ++ rest) = .truncated) ∧
      (payloadLength o (headerOf hd) ≤ rest.length →
        ∃ i, decode (hd ++ rest) = .command i (rest.drop (payloadLength o (headerOf hd))))) ∧
    payloadLength .new (headerOf hd) = (if (headerOf hd).getLsbD 10 then (if (headerOf hd).getLsbD 8 then 14 else 16) else 0) +
      ((headerOf hd).extractLsb' 24 8).toNat + ((headerOf hd).extractLsb' 32 8).toNat +
      ((headerOf hd).extractLsb' 40 8).toNat ∧
    payloadLength .update (headerOf hd) = ((headerOf hd).extractLsb' 32 32).toNat ∧
    payloadLength .finalize (headerOf hd) = 0 ∧
    payloadLength .compress (headerOf hd) = (if (headerOf hd).getLsbD 8 then 104 else 208)

/-- R47, R52, R53: NEW from the bytes on the channel. Byte 1 of the header holds V, LN and TP in its bits 0, 1 and 2,
the bytes 2 to 5 are DLEN, KLEN, SLEN and PLEN; the payload is the tree descriptor if TP = 1, then KLEN key bytes, SLEN
salt bytes and PLEN personalization bytes. These bytes are that NEW and no other. -/
def Obligations.NewFromTheChannel : Prop :=
  ∀ (v : Variant) (ln : Bool) (dlen klen slen plen : Byte) (tree : Option TreeFields) (key salt pers rest : Bytes),
    key.length = klen.toNat → salt.length = slen.toNat → pers.length = plen.toNat →
    (∀ t ∈ tree, v = .S → t.nodeOffset.toNat < 2 ^ 48) →
    let flags : Byte := BitVec.ofNat 8 ((match v with | .B => 0 | .S => 1) + 2 * ln.toNat + 4 * tree.isSome.toNat)
    let descriptor : Bytes := match tree with
      | none => []
      | some t => [t.fanout, t.depth] ++ ((List.range 4).map fun k => t.leafLength.extractLsb' (8 * k) 8) ++
          ((List.range (match v with | .B => 8 | .S => 6)).map fun k => t.nodeOffset.extractLsb' (8 * k) 8) ++
          [t.nodeDepth, t.innerLength]
    decode ([0x01#8, flags, dlen, klen, slen, plen, 0x00#8, 0x00#8] ++ (descriptor ++ key ++ salt ++ pers ++ rest)) =
      .command (.new v ln dlen tree key salt pers) rest

/-- R48: UPDATE from the bytes on the channel. Bytes 4 to 7 of the header are LEN, least significant byte first; the
payload is the LEN data bytes. -/
def Obligations.UpdateFromTheChannel : Prop :=
  ∀ (len : BitVec 32) (data rest : Bytes), data.length = len.toNat →
    decode ([0x02#8, 0x00#8, 0x00#8, 0x00#8, len.extractLsb' 0 8, len.extractLsb' 8 8, len.extractLsb' 16 8,
      len.extractLsb' 24 8] ++ (data ++ rest)) = .command (.update data) rest

/-! ## The step (20_memory.md, 70_reset_and_hazards.md) -/

/-- When the bytes on the channel decode to a command, a step executes that command, its bytes gone from the
channel; the step does nothing else. -/
def Obligations.StepRunsDecoded : Prop :=
  ∀ (s : State) (i : Instr) (rest : Bytes), s.resetIn = false → decode s.cmd = .command i rest →
    step s = exec i { s with cmd := rest }

/-- R31, R40: a host that sends whole commands back to back has them executed in order, each complete before the
next: `n` steps of the engine over the byte stream are the `n` meanings one after the other. -/
def Obligations.CommandStreamRunsInOrder : Prop :=
  ∀ (is : List Instr) (s : State), (∀ i ∈ is, WellFormed i) → s.resetIn = false →
    s.cmd = is.flatMap encode →
    Host.Core.run Sys2Proof.core is.length s = execAll is { s with cmd := [] }

/-- R166: a channel that ends inside a command gives the step no next state and no response; an empty channel
likewise. -/
def Obligations.TruncatedCommandWaits : Prop :=
  ∀ (s : State) (i : Instr) (p q : Bytes), WellFormed i → encode i = p ++ q → q ≠ [] → s.resetIn = false →
    s.cmd = p → step s = .fault (if p = [] then .awaitingCommand else .truncatedCommand)

/-- R166: the wait of a truncated command. Bytes sent later are taken as its payload, in order, until it is whole;
taking responses does not end the wait, nor does a flush with no reset, nor a reset without the flush; a reset with
its flush does. The model's own in this: waiting is a fault (log 1); a reset leaves both channels alone (log 7); the
release of the input resets with no step in between, and an input that is not asserted has no release (log 18); the
flush comes while the input is asserted and empties the channel (log 20). -/
def Obligations.OnlyResetEndsTheWait : Prop :=
  (∀ (s : State) (o : Op) (hd p bytes : Bytes), s.resetIn = false → s.cmd = hd ++ p → hd.length = 8 →
    matchesRow o (headerOf hd) → p.length < payloadLength o (headerOf hd) →
    (p.length + bytes.length < payloadLength o (headerOf hd) → step (s.hostSend bytes) = .fault .truncatedCommand) ∧
    (payloadLength o (headerOf hd) ≤ p.length + bytes.length →
      ∃ i, encode i = hd ++ (p ++ bytes).take (payloadLength o (headerOf hd)) ∧
        step (s.hostSend bytes) = exec i { s with cmd := (p ++ bytes).drop (payloadLength o (headerOf hd)) })) ∧
  (∀ (s : State), s.resetIn = false → step s = .fault .truncatedCommand →
    s.hostFlush = s ∧ s.hostReleaseReset = s ∧ (∀ n, step (s.hostTake n).2 = .fault .truncatedCommand) ∧
    step s.hostAssertReset.hostReleaseReset = .fault .truncatedCommand ∧
    s.hostAssertReset.hostFlush.hostReleaseReset.phase = .idle ∧
    s.hostAssertReset.hostFlush.hostReleaseReset.rsp = s.rsp ∧
    step s.hostAssertReset.hostFlush.hostReleaseReset = .fault .awaitingCommand)

/-- R143: a header that matches no row of the opcode table is answered with IllegalCommand; its eight bytes are
consumed and nothing else changes. Nothing else is answered so. -/
def Obligations.IllegalHeaderAnswered : Prop :=
  (∀ (s : State) (hd rest : Bytes), s.resetIn = false → hd.length = 8 → s.cmd = hd ++ rest →
    (∀ o, ¬ matchesRow o (headerOf hd)) →
    step s = .next { s with cmd := rest, rsp := s.rsp ++ [0x03#8, 0#8, 0#8, 0#8] }) ∧
  (∀ s t : State, step s = .next t → t.rsp = s.rsp ++ [0x03#8, 0#8, 0#8, 0#8] → ∀ o, ¬ matchesRow o (headerOf s.cmd))

/-- R160: while the reset input is asserted a step takes no command and sends no response, whatever is on the
channel, and leaves `PHASE` = IDLE; so does the input's release. That every such step is itself a reset with a next
state, and that the release alone resets as well, is the model's choice (log 18); that the channels keep their bytes
is its reading (log 7). -/
def Obligations.ResetInputHolds : Prop :=
  ∀ s : State, s.resetIn = true →
    (∃ t, step s = .next t ∧ t.phase = .idle ∧ t.cmd = s.cmd ∧ t.rsp = s.rsp ∧ t.resetIn = true) ∧
    s.hostReleaseReset.phase = .idle ∧ s.hostReleaseReset.cmd = s.cmd ∧ s.hostReleaseReset.rsp = s.rsp ∧
    s.hostReleaseReset.resetIn = false

/-- R161: the reset state is IDLE, nothing has been sent, and the first thing the engine does is wait. -/
def Obligations.ResetStateWaits : Prop :=
  State.reset.phase = .idle ∧ State.reset.cmd = [] ∧ State.reset.rsp = [] ∧
  step State.reset = .fault .awaitingCommand

/-! ## Word operations (40_wordops.md) -/

/-- R71, R105: rotation, bit by bit and by formula, its corner cases and its examples; an amount of `W` or more is
taken modulo `W`, and every amount of ROT lies in `0 < n < W`. -/
def Obligations.RotationByBits : Prop :=
  (∀ (v : Variant) (x : Word v) (n i : Nat), n < v.W → i < v.W →
    (rotr x n).getLsbD i = x.getLsbD ((i + n) % v.W)) ∧
  (∀ (v : Variant) (x : Word v) (n : Nat), 0 < n → n < v.W →
    (rotr x n).toNat = (x.toNat >>> n ||| x.toNat <<< (v.W - n)) % 2 ^ v.W) ∧
  (∀ (v : Variant) (x : Word v), rotr x 0 = x) ∧
  (∀ (v : Variant) (x : Word v) (n : Nat), rotr x n = rotr x (n % v.W)) ∧
  (∀ (v : Variant) (n : Nat), n < v.W → rotr (0#v.W) n = 0#v.W ∧ rotr (BitVec.allOnes v.W) n = BitVec.allOnes v.W) ∧
  (∀ x : Word .B, rotr x 63 = x.rotateLeft 1) ∧
  rotr (v := .B) 0x0123456789abcdef#64 24 = 0xabcdef0123456789#64 ∧
  rotr (v := .S) 0x00000001#32 7 = 0x02000000#32 ∧
  rot .B = (32, 24, 16, 63) ∧ rot .S = (16, 12, 8, 7) ∧
  (∀ (v : Variant) (n : Nat), n ∈ [(rot v).1, (rot v).2.1, (rot v).2.2.1, (rot v).2.2.2] → 0 < n ∧ n < v.W)

/-- R72, R73, R74: wrapping addition, exclusive or and inversion, with their laws, corner cases and examples. -/
def Obligations.WordArithmetic : Prop :=
  (∀ (v : Variant) (a b : Word v), (wadd a b).toNat = (a.toNat + b.toNat) % 2 ^ v.W) ∧
  (∀ (v : Variant) (a b c : Word v), wadd a b = wadd b a ∧ wadd (wadd a b) c = wadd a (wadd b c) ∧
    wadd a (0#v.W) = a) ∧
  (∀ v : Variant, wadd (BitVec.allOnes v.W) (1#v.W) = 0#v.W ∧
    (wadd (BitVec.allOnes v.W) (BitVec.allOnes v.W)).toNat = 2 ^ v.W - 2 ∧
    wadd (BitVec.ofNat v.W (2 ^ (v.W - 1))) (BitVec.ofNat v.W (2 ^ (v.W - 1))) = 0#v.W) ∧
  (∀ (v : Variant) (a b : Word v) (i : Nat), (wxor a b).getLsbD i = true ↔ a.getLsbD i ≠ b.getLsbD i) ∧
  (∀ (v : Variant) (a : Word v), wxor a a = 0#v.W ∧ wxor a (0#v.W) = a) ∧
  (∀ (v : Variant) (a : Word v), (wnot a).toNat = 2 ^ v.W - 1 - a.toNat ∧ wnot a = wxor a (BitVec.allOnes v.W) ∧
    wnot (wnot a) = a ∧ (wnot (0#v.W)).toNat = 2 ^ v.W - 1) ∧
  wadd (v := .S) 0xffffffff#32 0xffffffff#32 = 0xfffffffe#32 ∧
  wxor (v := .B) 0x6a09e667f3bcc908#64 0x0000000001010040#64 = 0x6a09e667f2bdc948#64 ∧
  wnot (v := .B) 0x1f83d9abfb41bd6b#64 = 0xe07c265404be4294#64 ∧ wnot (v := .S) 0x1f83d9ab#32 = 0xe07c2654#32

/-- R75 to R78: the serializer byte by byte and word by word, with the spec's examples. -/
def Obligations.SerializerByteOrder : Prop :=
  (∀ (v : Variant) (x : Word v), (wordToBytes x).length = v.WB ∧
    ∀ k, k < v.WB → (wordToBytes x)[k]? = some (x.extractLsb' (8 * k) 8)) ∧
  (∀ (v : Variant) (s : Bytes), s.length = v.WB →
    (bytesToWord v s).toNat = ((List.range v.WB).map fun k => (s.getD k 0#8).toNat <<< (8 * k)).sum) ∧
  (∀ (v : Variant) (ws : List (Word v)), (wordsToBytes ws).length = ws.length * v.WB ∧
    ∀ i k, (h : i < ws.length) → k < v.WB → (wordsToBytes ws)[v.WB * i + k]? = (wordToBytes ws[i])[k]?) ∧
  (∀ (v : Variant) (n : Nat) (s : Bytes), (bytesToWords v n s).length = n) ∧
  (∀ (v : Variant) (n i : Nat) (s : Bytes), i < n →
    (bytesToWords v n s)[i]? = some (bytesToWord v ((s.drop (v.WB * i)).take v.WB))) ∧
  wordToBytes (v := .B) 0x0123456789abcdef#64
    = [0xef#8, 0xcd#8, 0xab#8, 0x89#8, 0x67#8, 0x45#8, 0x23#8, 0x01#8] ∧
  wordToBytes (v := .S) 0x01234567#32 = [0x67#8, 0x45#8, 0x23#8, 0x01#8] ∧
  bytesToWord .B [0x61#8, 0x62#8, 0x63#8, 0#8, 0#8, 0#8, 0#8, 0#8] = 0x0000000000636261#64 ∧
  wordsToBytes (v := .S) [0x8c5e8c50#32, 0xe2147c32#32]
    = [0x50#8, 0x8c#8, 0x5e#8, 0x8c#8, 0x32#8, 0x7c#8, 0x14#8, 0xe2#8]

/-- R79: serializing and loading are inverse to each other. -/
def Obligations.SerializationRoundTrip : Prop :=
  (∀ (v : Variant) (ws : List (Word v)), bytesToWords v ws.length (wordsToBytes ws) = ws) ∧
  (∀ (v : Variant) (s : Bytes), s.length % v.WB = 0 → wordsToBytes (bytesToWords v (s.length / v.WB) s) = s)

/-! ## The parameter block (41_parameter_block.md) -/

/-- R88: the layout of the B block, field by field, for operands of the widths R86 and R52 admit. -/
def Obligations.ParameterBlockLayoutB : Prop :=
  ∀ (dlen : Byte) (klen : Nat) (tree : TreeFields) (salt pers : Bytes),
    salt.length = 16 → pers.length = 16 →
    let P := paramBlock .B dlen klen tree salt pers
    P.length = 64 ∧
    P.take 4 = [dlen, BitVec.ofNat 8 klen, tree.fanout, tree.depth] ∧
    (P.drop 4).take 4 = leBytes 4 tree.leafLength.toNat ∧
    (P.drop 8).take 8 = leBytes 8 tree.nodeOffset.toNat ∧
    (P.drop 16).take 2 = [tree.nodeDepth, tree.innerLength] ∧
    (P.drop 18).take 14 = List.replicate 14 0#8 ∧
    (P.drop 32).take 16 = salt ∧ (P.drop 48).take 16 = pers ∧
    paramBlock .B 64#8 0 defaultTree [] [] = [0x40#8, 0x00#8, 0x01#8, 0x01#8] ++ List.replicate 60 0#8

/-- R89: the layout of the S block, field by field, for operands of the widths R86 and R52 admit. -/
def Obligations.ParameterBlockLayoutS : Prop :=
  ∀ (dlen : Byte) (klen : Nat) (tree : TreeFields) (salt pers : Bytes),
    tree.fits .S = true → salt.length = 8 → pers.length = 8 →
    let P := paramBlock .S dlen klen tree salt pers
    P.length = 32 ∧
    P.take 4 = [dlen, BitVec.ofNat 8 klen, tree.fanout, tree.depth] ∧
    (P.drop 4).take 4 = leBytes 4 tree.leafLength.toNat ∧
    (P.drop 8).take 6 = leBytes 6 tree.nodeOffset.toNat ∧
    (P.drop 14).take 2 = [tree.nodeDepth, tree.innerLength] ∧
    (P.drop 16).take 8 = salt ∧ (P.drop 24).take 8 = pers ∧
    paramBlock .S 32#8 0 defaultTree [] [] = [0x20#8, 0x00#8, 0x01#8, 0x01#8] ++ List.replicate 28 0#8

/-- R87: an absent salt or personalization gives the parameter block that one of zero bytes gives, and the NEW that
carries it does what the other does, whatever its other operands. -/
def Obligations.AbsentSaltIsZeros : Prop :=
  (∀ (v : Variant) (dlen : Byte) (klen : Nat) (tree : TreeFields) (salt pers : Bytes),
    paramBlock v dlen klen tree [] pers = paramBlock v dlen klen tree (List.replicate v.SALTBYTES 0#8) pers ∧
    paramBlock v dlen klen tree salt [] = paramBlock v dlen klen tree salt (List.replicate v.PERSBYTES 0#8)) ∧
  (∀ (v : Variant) (ln : Bool) (dlen : Byte) (tree : Option TreeFields) (key salt pers : Bytes) (s : State),
    exec (.new v ln dlen tree key [] pers) s = exec (.new v ln dlen tree key (List.replicate v.SALTBYTES 0#8) pers) s ∧
    exec (.new v ln dlen tree key salt []) s = exec (.new v ln dlen tree key salt (List.replicate v.PERSBYTES 0#8)) s)

/-- R90: the parameter words of a block with default tree fields, no salt and no personalization. -/
def Obligations.DefaultParameterWords : Prop :=
  (∀ (v : Variant) (dlen : Byte) (klen : Nat), klen ≤ v.KEYMAX →
    ((paramWords v (paramBlock v dlen klen defaultTree [] []))[0]).toNat = 0x01010000 + 256 * klen + dlen.toNat ∧
    ∀ i : Fin 8, i ≠ 0 → (paramWords v (paramBlock v dlen klen defaultTree [] []))[i] = 0#v.W) ∧
  (∀ (v : Variant) (P : Bytes), (paramWords v P).toList = bytesToWords v 8 P) ∧
  (paramWords .B (paramBlock .B 64#8 64 defaultTree [] []))[0] = 0x0000000001014040#64

/-- R91: the initial state is `IV[i] ^ p[i]`, with the spec's two examples. -/
def Obligations.InitialStateIsIvXorP : Prop :=
  (∀ (v : Variant) (P : Bytes) (i : Fin 8), (initialState v P)[i] = (iv v)[i] ^^^ (paramWords v P)[i]) ∧
  (let h0 := initialState .B (paramBlock .B 64#8 0 defaultTree [] [])
   h0[0] = 0x6a09e667f2bdc948#64 ∧ ∀ i : Fin 8, i ≠ 0 → h0[i] = (iv .B)[i]) ∧
  (let h0 := initialState .S (paramBlock .S 32#8 0 defaultTree [] [])
   h0[0] = 0x6b08e647#32 ∧ ∀ i : Fin 8, i ≠ 0 → h0[i] = (iv .S)[i])

/-! ## The compression function (42_compression.md) -/

/-- R104: G's eight assignments, that it rewrites no other working word, the corner case of zeros and the two
examples. -/
def Obligations.GRewritesFourWords : Prop :=
  (∀ (v : Variant) (w : Vector (Word v) 16) (a b c d : Fin 16) (x y : Word v),
    a ≠ b → a ≠ c → a ≠ d → b ≠ c → b ≠ d → c ≠ d →
    let a1 := wadd (wadd w[a] w[b]) x
    let d1 := rotr (wxor w[d] a1) (rot v).1
    let c1 := wadd w[c] d1
    let b1 := rotr (wxor w[b] c1) (rot v).2.1
    let a2 := wadd (wadd a1 b1) y
    let d2 := rotr (wxor d1 a2) (rot v).2.2.1
    let c2 := wadd c1 d2
    let b2 := rotr (wxor b1 c2) (rot v).2.2.2
    (mixG v w a b c d x y)[a] = a2 ∧ (mixG v w a b c d x y)[b] = b2 ∧
    (mixG v w a b c d x y)[c] = c2 ∧ (mixG v w a b c d x y)[d] = d2 ∧
    ∀ k : Fin 16, k ≠ a → k ≠ b → k ≠ c → k ≠ d → (mixG v w a b c d x y)[k] = w[k]) ∧
  (∀ v : Variant, mixG v (Vector.replicate 16 (0#v.W)) 0 4 8 12 (0#v.W) (0#v.W) = Vector.replicate 16 (0#v.W)) ∧
  (let w := mixG .B (Vector.replicate 16 0#64) 0 4 8 12 1#64 0#64
   w[0] = 0x0000000000000101#64 ∧ w[4] = 0x0202000200020200#64 ∧ w[8] = 0x0101000100010000#64 ∧
     w[12] = 0x0101000000010000#64) ∧
  (let w := mixG .S (Vector.replicate 16 0#32) 0 4 8 12 1#32 0#32
   w[0] = 0x00000011#32 ∧ w[4] = 0x20220202#32 ∧ w[8] = 0x11010100#32 ∧ w[12] = 0x11000100#32)

/-- R106: a round is eight applications of G, columns first and then diagonals, each with its two message words
by the schedule row `r mod 10`. -/
def Obligations.RoundOrder : Prop :=
  ∀ (v : Variant) (m w : Vector (Word v) 16) (r : Nat),
    let s := sigmaRow r
    mixRound v m w r =
      (let w := mixG v w 0 4 8 12 m[s[0]] m[s[1]]
       let w := mixG v w 1 5 9 13 m[s[2]] m[s[3]]
       let w := mixG v w 2 6 10 14 m[s[4]] m[s[5]]
       let w := mixG v w 3 7 11 15 m[s[6]] m[s[7]]
       let w := mixG v w 0 5 10 15 m[s[8]] m[s[9]]
       let w := mixG v w 1 6 11 12 m[s[10]] m[s[11]]
       let w := mixG v w 2 7 8 13 m[s[12]] m[s[13]]
       mixG v w 3 4 9 14 m[s[14]] m[s[15]])

/-- R111: within one pass the four applications of G may be made in any order. -/
def Obligations.PassOrderIsIrrelevant : Prop :=
  ∀ (v : Variant) (m w : Vector (Word v) 16) (s : Vector (Fin 16) 16) (l : List GStep),
    (l.Perm (columnPass s) → l.foldl (applyG v m) w = (columnPass s).foldl (applyG v m) w) ∧
    (l.Perm (diagonalPass s) → l.foldl (applyG v m) w = (diagonalPass s).foldl (applyG v m) w)

/-- R101, R102, R103, R110: every S word of the IV is the upper half of the B word; every row of the schedule is a
permutation of 0..15; round `r` uses row `r mod 10`, so rounds 10 and 11 use rows 0 and 1 again; one compression is
96 applications of G for B and 80 for S. -/
def Obligations.ConstantTables : Prop :=
  (∀ i : Fin 8, (iv .S)[i] = (iv .B)[i].extractLsb' 32 32) ∧
  (∀ r : Fin 10, (sigma[r].toList).Perm (List.finRange 16)) ∧
  (∀ (r : Nat) (i : Fin 10), r % 10 = i.val → sigmaRow r = sigma[i]) ∧
  sigmaRow 10 = sigma[0] ∧ sigmaRow 11 = sigma[1] ∧
  ((List.range Variant.B.R).flatMap roundSteps).length = 96 ∧
  ((List.range Variant.S.R).flatMap roundSteps).length = 80

/-- R108: the sixteen working words before the first round, the rounds in order, and the final fold; without the final
flag the last-node flag changes nothing. -/
def Obligations.CompressInitAndFold : Prop :=
  ∀ (v : Variant) (h : Vector (Word v) 8) (block : Bytes) (t0 t1 : Word v) (f ln : Bool),
    (∀ i : Fin 8, (workInit v h t0 t1 f ln)[i.val]'(by omega) = h[i]) ∧
    (∀ i : Fin 4, (workInit v h t0 t1 f ln)[i.val + 8]'(by omega) = (iv v)[i.val]'(by omega)) ∧
    (workInit v h t0 t1 f ln)[12] = (iv v)[4] ^^^ t0 ∧ (workInit v h t0 t1 f ln)[13] = (iv v)[5] ^^^ t1 ∧
    (workInit v h t0 t1 f ln)[14] = (if f then ~~~(iv v)[6] else (iv v)[6]) ∧
    (workInit v h t0 t1 f ln)[15] = (if f && ln then ~~~(iv v)[7] else (iv v)[7]) ∧
    compress v h block t0 t1 false true = compress v h block t0 t1 false false ∧
    ∀ i : Fin 8,
      (compress v h block t0 t1 f ln)[i] =
        h[i] ^^^ ((List.range v.R).foldl (mixRound v (loadWords v 16 block)) (workInit v h t0 t1 f ln))[i.val]'(by omega)
          ^^^ ((List.range v.R).foldl (mixRound v (loadWords v 16 block)) (workInit v h t0 t1 f ln))[i.val + 8]'(by omega)

/-- R108's example, the one compression of the hash of "abc", and 95_test_vectors.md CV10, the S compression of all
zeros: its result is not zero. -/
def Obligations.CompressKnownAnswer : Prop :=
  (compress .B (initialState .B (paramBlock .B 64#8 0 defaultTree [] []))
    ([0x61#8, 0x62#8, 0x63#8] ++ List.replicate 125 0#8) 3#64 0#64 true false)[0] = 0x0d4d1c983fa580ba#64 ∧
  compress .S #v[0, 0, 0, 0, 0, 0, 0, 0] (List.replicate 64 0#8) 0#32 0#32 false false =
    #v[0x6e26b02a#32, 0xa6a7800d#32, 0x51bb7b89#32, 0x1f01db51#32, 0x077b942d#32, 0x23e6122a#32, 0xa37d48e1#32,
       0x6e00c75e#32]

/-! ## The buffer and the counter (20_memory.md, 43_hasher_commands.md) -/

/-- R33: a MemRead gives what the last MemWrite put there, and a MemWrite leaves every other byte and every other
register alone. -/
def Obligations.BufferReadAfterWrite : Prop :=
  ∀ (v : Variant) (r : Regs v) (k : Nat) (s : Bytes),
    (r.memWrite k s).memRead k s.length = s ∧
    (∀ a, ¬(k ≤ a ∧ a < k + s.length) → (r.memWrite k s).readByte a = r.readByte a) ∧
    { r.memWrite k s with buf := r.buf } = r

/-- R121: `counter_add` adds modulo `2^(2W)`, whole and limb by limb with the carry between the limbs, and writes no
other register; with the spec's corner cases, the wrap of the whole counter (R131) among them. -/
def Obligations.CounterAddition : Prop :=
  (∀ (v : Variant) (r : Regs v) (n : Nat), n ≤ v.BS →
    (r.counterAdd n).t0.toNat = (r.t0.toNat + 2 ^ v.W * r.t1.toNat + n) % 2 ^ (2 * v.W) % 2 ^ v.W ∧
    (r.counterAdd n).t1.toNat = (r.t0.toNat + 2 ^ v.W * r.t1.toNat + n) % 2 ^ (2 * v.W) / 2 ^ v.W ∧
    (r.counterAdd n).t0 = wadd r.t0 (BitVec.ofNat v.W n) ∧
    (r.counterAdd n).t1 = (if (wadd r.t0 (BitVec.ofNat v.W n)).toNat < n then wadd r.t1 (1#v.W) else r.t1) ∧
    { r.counterAdd n with t0 := r.t0, t1 := r.t1 } = r) ∧
  (∀ r : Regs .B, r.t0 = 0xffffffffffffff80#64 → r.t1 = 0#64 →
    (r.counterAdd 128).t0 = 0#64 ∧ (r.counterAdd 128).t1 = 1#64) ∧
  (∀ r : Regs .S, r.t0 = 0xffffffc0#32 → r.t1 = 0#32 →
    (r.counterAdd 64).t0 = 0#32 ∧ (r.counterAdd 64).t1 = 1#32) ∧
  (∀ r : Regs .S, r.t0 = 0xffffffc0#32 → r.t1 = 0xffffffff#32 →
    (r.counterAdd 64).t0 = 0#32 ∧ (r.counterAdd 64).t1 = 0#32) ∧
  (∀ (v : Variant) (r : Regs v), r.counterAdd 0 = r)

/-! ## NEW (43_hasher_commands.md section 3) -/

/-- R123: a NEW whose parameters are in range succeeds in every phase and writes every register: the initial state,
a zero counter, the digest length, the last-node flag, and either an empty buffer or, with a key, the key block,
held and not compressed (R124). A NEW whose parameters are out of range is answered with InvalidParameter, in every
phase, and changes no register. -/
def Obligations.NewStartsHasherOrRefuses : Prop :=
  ∀ (v : Variant) (ln : Bool) (dlen : Byte) (tree : Option TreeFields) (key salt pers : Bytes) (s : State),
    (ParametersInRange v dlen.toNat key.length salt.length pers.length →
      ∃ (t : State) (r : Regs v),
        exec (.new v ln dlen tree key salt pers) s = .next t ∧
        t.phase = .absorbing ∧ t.ctx = ⟨v, r⟩ ∧ t.cmd = s.cmd ∧ t.resetIn = s.resetIn ∧
        t.rsp = s.rsp ++ [0#8, 0#8, 0#8, 0#8] ∧
        r.h = initialState v (paramBlock v dlen key.length (tree.getD ⟨1#8, 1#8, 0#32, 0#64, 0#8, 0#8⟩) salt pers) ∧
        r.t0 = 0#v.W ∧ r.t1 = 0#v.W ∧ r.outlen.toNat = dlen.toNat ∧ r.lastNode = ln ∧
        (key.length = 0 → r.buflen.val = 0) ∧
        (0 < key.length → r.buflen.val = v.BS ∧
          r.memRead 0 v.BS = key ++ List.replicate (v.BS - key.length) 0#8)) ∧
    (¬ ParametersInRange v dlen.toNat key.length salt.length pers.length →
      exec (.new v ln dlen tree key salt pers) s = .next { s with rsp := s.rsp ++ [0x01#8, 0#8, 0#8, 0#8] })

/-- R86, R141: the response is InvalidParameter exactly for a NEW with a digest length of 0 or above the variant's
maximum, a key above the variant's maximum, or a salt or personalization of another width, in every phase. -/
def Obligations.InvalidParameterExactly : Prop :=
  ∀ (i : Instr) (s : State),
    (∃ t, exec i s = .next t ∧ t.rsp = s.rsp ++ [0x01#8, 0#8, 0#8, 0#8]) ↔
      ∃ v ln dlen tree key salt pers, i = .new v ln dlen tree key salt pers ∧
        (dlen.toNat = 0 ∨ v.OUTMAX < dlen.toNat ∨ v.KEYMAX < key.length ∨
          (salt.length ≠ 0 ∧ salt.length ≠ v.SALTBYTES) ∨ (pers.length ≠ 0 ∧ pers.length ≠ v.PERSBYTES))

/-! ## UPDATE (43_hasher_commands.md section 4) -/

/-- R125: in ABSORBING an UPDATE of data that fits the buffer appends it and compresses nothing: `h`, `t` and
every byte outside the appended ones keep their values. That the bytes at and above the new `buflen` keep theirs,
which R16 gives no value, is the model's choice (log 4; log 5 for bytes never written). -/
def Obligations.UpdateWithinBlock : Prop :=
  ∀ (v : Variant) (r : Regs v) (data : Bytes) (s : State),
    s.phase = .absorbing → s.ctx = ⟨v, r⟩ → r.buflen.val + data.length ≤ v.BS →
    ∃ (t : State) (q : Regs v),
      exec (.update data) s = .next t ∧ t.ctx = ⟨v, q⟩ ∧
      t.phase = s.phase ∧ t.cmd = s.cmd ∧ t.resetIn = s.resetIn ∧ t.rsp = s.rsp ++ [0#8, 0#8, 0#8, 0#8] ∧
      q.h = r.h ∧ q.t0 = r.t0 ∧ q.t1 = r.t1 ∧ q.outlen = r.outlen ∧ q.lastNode = r.lastNode ∧
      q.buflen.val = r.buflen.val + data.length ∧
      (∀ k, (h : k < data.length) → q.readByte (r.buflen.val + k) = data[k]) ∧
      (∀ a, ¬(r.buflen.val ≤ a ∧ a < r.buflen.val + data.length) → q.readByte a = r.readByte a)

/-- R122: one byte on a full buffer advances the counter by `BS`, compresses the held block with `f = 0` under the
advanced counter, and leaves the byte alone in the buffer. That the other bytes of `buf` keep their values, which
are all above the new `buflen` so that R16 gives them none, is the model's choice (log 4; log 5 for bytes never
written). -/
def Obligations.UpdateOnFullBuffer : Prop :=
  ∀ (v : Variant) (r : Regs v) (b : Byte) (s : State),
    s.phase = .absorbing → s.ctx = ⟨v, r⟩ → r.buflen.val = v.BS →
    ∃ (t : State) (q : Regs v),
      exec (.update [b]) s = .next t ∧ t.ctx = ⟨v, q⟩ ∧
      t.phase = s.phase ∧ t.cmd = s.cmd ∧ t.resetIn = s.resetIn ∧ t.rsp = s.rsp ++ [0#8, 0#8, 0#8, 0#8] ∧
      q.counter = (r.counter + v.BS) % 2 ^ (2 * v.W) ∧
      q.h = compress v r.h (r.memRead 0 v.BS) q.t0 q.t1 false false ∧
      q.buflen.val = 1 ∧ q.readByte 0 = b ∧ (∀ a, a ≠ 0 → q.readByte a = r.readByte a) ∧
      q.outlen = r.outlen ∧ q.lastNode = r.lastNode

/-- R125, R122: in ABSORBING every UPDATE completes. With `D` the bytes held and the data, and
`n = ceil((buflen + LEN) / BS) - 1`, it compresses the first `n` blocks of `D`, each with `f = 0` under the counter
advanced by `BS`, leaves the rest of `D` in the buffer, and stores byte `j` of the data at `(buflen + j) mod BS` and
nowhere else, so that afterwards the last `BS` bytes of the data (all of it, if shorter) are there; without data it
changes nothing. Outside ABSORBING it is refused and changes nothing. That bytes at and above the new `buflen` hold what
was stored there last, or keep their value, is the model's choice, since R16 gives them none (log 4; log 5 for bytes
never written). -/
def Obligations.UpdateAbsorbsOrRefuses : Prop :=
  ∀ (v : Variant) (r : Regs v) (data : Bytes) (s : State), s.ctx = ⟨v, r⟩ →
    (s.phase = .absorbing →
      ∃ (t : State) (q : Regs v),
        exec (.update data) s = .next t ∧ t.ctx = ⟨v, q⟩ ∧
        t.phase = s.phase ∧ t.cmd = s.cmd ∧ t.resetIn = s.resetIn ∧ t.rsp = s.rsp ++ [0#8, 0#8, 0#8, 0#8] ∧
        q.outlen = r.outlen ∧ q.lastNode = r.lastNode ∧
        (data = [] → q = r) ∧
        (data ≠ [] →
          let n := blockCount v (r.buflen.val + data.length) - 1
          let D := r.memRead 0 r.buflen.val ++ data
          q.counter = (r.counter + v.BS * n) % 2 ^ (2 * v.W) ∧
          q.h = chain v r.counter r.h D n ∧
          q.buflen.val = r.buflen.val + data.length - v.BS * n ∧
          q.memRead 0 q.buflen.val = D.drop (v.BS * n) ∧
          (∀ j, (h : j < data.length) → data.length ≤ j + v.BS → q.readByte ((r.buflen.val + j) % v.BS) = data[j]) ∧
          (∀ a, (∀ j, j < data.length → (r.buflen.val + j) % v.BS ≠ a) → q.readByte a = r.readByte a))) ∧
    (s.phase ≠ .absorbing →
      exec (.update data) s = .next { s with rsp := s.rsp ++ [0x02#8, 0#8, 0#8, 0#8] })

/-- R129: in ABSORBING, UPDATEs one after the other leave the whole context that one UPDATE of the concatenated
data leaves, however the data is cut, empty pieces included, and FINALIZE then delivers the same digest.R129 says so
of `h`, `t`, `buflen`, `buf[0..buflen-1]` and the digest; that the bytes of `buf` at and above `buflen`, which R16 leaves
unspecified, agree as well is the model's choice (log 4; log 5 for bytes never written). -/
def Obligations.ChunkingInvariance : Prop :=
  ∀ (chunks : List Bytes) (s : State), s.phase = .absorbing →
    ∃ (t u t' u' : State) (d : Bytes),
      execAll (chunks.map Instr.update) s = .next t ∧ exec (.update chunks.flatten) s = .next u ∧
      t.ctx = u.ctx ∧ t.phase = u.phase ∧
      exec .finalize t = .next t' ∧ exec .finalize u = .next u' ∧ t'.rsp = t.rsp ++ responseOf 0#8 d ∧
      u'.rsp = u.rsp ++ responseOf 0#8 d

/-! ## FINALIZE (43_hasher_commands.md section 5) -/

/-- R126: in ABSORBING a FINALIZE pads with zeros, advances the counter by the true length, compresses with the
final flag and the hasher's last-node flag, enters FINALIZED and sends the first `outlen` bytes of the
serialized state; every other register and every byte below `buflen` keeps its value. Outside ABSORBING it is
refused and changes nothing. -/
def Obligations.FinalizeDeliversOrRefuses : Prop :=
  ∀ (v : Variant) (r : Regs v) (s : State), s.ctx = ⟨v, r⟩ →
    (s.phase = .absorbing →
      ∃ (t : State) (q : Regs v),
        exec .finalize s = .next t ∧ t.phase = .finalized ∧ t.ctx = ⟨v, q⟩ ∧ t.cmd = s.cmd ∧ t.resetIn = s.resetIn ∧
        q.counter = (r.counter + r.buflen.val) % 2 ^ (2 * v.W) ∧
        q.h = compress v r.h (r.memRead 0 r.buflen.val ++ List.replicate (v.BS - r.buflen.val) 0#8) q.t0 q.t1 true
          r.lastNode ∧
        q.buflen = r.buflen ∧ q.outlen = r.outlen ∧ q.lastNode = r.lastNode ∧
        (∀ a, ¬(r.buflen.val ≤ a ∧ a < v.BS) → q.readByte a = r.readByte a) ∧
        (∀ a, r.buflen.val ≤ a → a < v.BS → q.readByte a = 0#8) ∧
        t.rsp = s.rsp ++ responseOf 0#8 ((wordsToBytes q.h.toList).take r.outlen.toNat)) ∧
    (s.phase ≠ .absorbing → exec .finalize s = .next { s with rsp := s.rsp ++ [0x02#8, 0#8, 0#8, 0#8] })

/-- R17, R126: the digest of a hasher in progress has exactly `outlen` bytes. -/
def Obligations.DigestHasOutlenBytes : Prop :=
  ∀ s : State, s.Inv → s.phase = .absorbing →
    ∃ (t : State) (d : Bytes), exec .finalize s = .next t ∧ t.rsp = s.rsp ++ responseOf 0#8 d ∧
      d.length = s.ctx.regs.outlen.toNat ∧ 1 ≤ d.length ∧ d.length ≤ s.ctx.variant.OUTMAX

/-! ## COMPRESS (43_hasher_commands.md section 6) -/

/-- R127: COMPRESS answers with the serialized result of `compress` on its own operands, in every phase, and
leaves every register alone. -/
def Obligations.CompressAnswers : Prop :=
  ∀ (v : Variant) (f ln : Bool) (h : Vector (Word v) 8) (block : Bytes) (t0 t1 : Word v) (s : State),
    exec (.compress v f ln h block t0 t1) s =
      .next { s with rsp := s.rsp ++ ([0#8, BitVec.ofNat 8 (8 * v.WB), 0#8, 0#8]
        ++ wordsToBytes (compress v h block t0 t1 f ln).toList) }

/-- R54, R127: COMPRESS from the bytes on the channel: the header of format C, then for the header's variant the eight
state words, the block, the counter's low and high word; whatever these bytes are, the response carries the serialized
result, and nothing else changes. -/
def Obligations.CompressFromTheChannel : Prop :=
  ∀ (v : Variant) (f ln : Bool) (a block c0 c1 rest : Bytes) (s : State),
    a.length = 8 * v.WB → block.length = v.BS → c0.length = v.WB → c1.length = v.WB → s.resetIn = false →
    s.cmd = [0x04#8, BitVec.ofNat 8 ((match v with | .B => 0 | .S => 1) + 2 * f.toNat + 4 * ln.toNat), 0#8, 0#8, 0#8,
      0#8, 0#8, 0#8] ++ (a ++ block ++ c0 ++ c1 ++ rest) →
    step s = .next { s with
      cmd := rest
      rsp := s.rsp ++ ([0#8, BitVec.ofNat 8 (8 * v.WB), 0#8, 0#8] ++
        wordsToBytes (compress v (loadWords v 8 a) block (bytesToWord v c0) (bytesToWord v c1) f (f && ln)).toList) }

/-! ## Rules of the whole machine (10_state.md, 60_exceptions.md) -/

/-- R32, R55, R168: every command, in every state, completes with exactly one response, of at most 64 payload bytes
and none if the status is not OK; it takes nothing more from the command channel. -/
def Obligations.OneResponsePerCommand : Prop :=
  ∀ (i : Instr) (s : State), ∃ (t : State) (st : Status) (p : Bytes),
    exec i s = .next t ∧ t.rsp = s.rsp ++ responseOf st.code p ∧ p.length ≤ 64 ∧ (st ≠ .ok → p = []) ∧
    t.cmd = s.cmd ∧ t.resetIn = s.resetIn

/-- R142: the response is InvalidState exactly for an UPDATE or a FINALIZE outside ABSORBING. -/
def Obligations.InvalidStateExactly : Prop :=
  ∀ (i : Instr) (s : State),
    (∃ t, exec i s = .next t ∧ t.rsp = s.rsp ++ [0x02#8, 0#8, 0#8, 0#8]) ↔
      (needsHasher i = true ∧ s.phase ≠ .absorbing)

/-- R145: a step whose response reports an error has consumed the command, payload included (of an illegal header the
eight bytes), and leaves every register as it was; the response has no payload. -/
def Obligations.ErrorsArePrecise : Prop :=
  ∀ (s t : State) (st : Status) (p : Bytes), step s = .next t → t.rsp = s.rsp ++ responseOf st.code p → st ≠ .ok →
    ∃ rest : Bytes,
      ((∃ i, decode s.cmd = .command i rest ∧ s.cmd = encode i ++ rest) ∨
        (∃ why, decode s.cmd = .illegal why rest ∧ rest = s.cmd.drop 8)) ∧
      t = { s with cmd := rest, rsp := s.rsp ++ [st.code, 0#8, 0#8, 0#8] }

/-- R13: the transitions of `PHASE` and the STATUS that goes with each, over every step. -/
def Obligations.PhaseTransitions : Prop :=
  ∀ s t : State, step s = .next t →
    (s.resetIn = true → t.phase = .idle) ∧
    (s.resetIn = false → ∀ why rest, decode s.cmd = .illegal why rest →
      t.phase = s.phase ∧ t.rsp = s.rsp ++ responseOf 3#8 []) ∧
    (s.resetIn = false → ∀ v ln dlen tree key salt pers rest,
      decode s.cmd = .command (.new v ln dlen tree key salt pers) rest →
      (ParametersInRange v dlen.toNat key.length salt.length pers.length →
        t.phase = .absorbing ∧ t.rsp = s.rsp ++ responseOf 0#8 []) ∧
      (¬ ParametersInRange v dlen.toNat key.length salt.length pers.length →
        t.phase = s.phase ∧ t.rsp = s.rsp ++ responseOf 1#8 [])) ∧
    (s.resetIn = false → ∀ data rest, decode s.cmd = .command (.update data) rest →
      (s.phase = .absorbing → t.phase = .absorbing ∧ t.rsp = s.rsp ++ responseOf 0#8 []) ∧
      (s.phase ≠ .absorbing → t.phase = s.phase ∧ t.rsp = s.rsp ++ responseOf 2#8 [])) ∧
    (s.resetIn = false → ∀ rest, decode s.cmd = .command .finalize rest →
      (s.phase = .absorbing → t.phase = .finalized ∧ ∃ d, t.rsp = s.rsp ++ responseOf 0#8 d) ∧
      (s.phase ≠ .absorbing → t.phase = s.phase ∧ t.rsp = s.rsp ++ responseOf 2#8 [])) ∧
    (s.resetIn = false → ∀ v f ln h block t0 t1 rest,
      decode s.cmd = .command (.compress v f ln h block t0 t1) rest →
      t.phase = s.phase ∧ ∃ d, t.rsp = s.rsp ++ responseOf 0#8 d)

/-- R24: no command but NEW writes `VARIANT`, `outlen` or `last_node`; COMPRESS writes no register at all. -/
def Obligations.OnlyNewWritesParameters : Prop :=
  ∀ (i : Instr) (s t : State), exec i s = .next t → isNew i = false →
    t.ctx.variant = s.ctx.variant ∧ t.ctx.regs.outlen = s.ctx.regs.outlen ∧
    t.ctx.regs.lastNode = s.ctx.regs.lastNode ∧
    (needsHasher i = false → t.ctx = s.ctx ∧ t.phase = s.phase)

/-- R146: outside ABSORBING the context stays as it is however many commands are executed, as long as none of them
is a NEW. -/
def Obligations.OnlyNewRevives : Prop :=
  ∀ (is : List Instr) (s : State), s.phase ≠ .absorbing → (∀ i ∈ is, isNew i = false) →
    ∃ t, execAll is s = .next t ∧ t.ctx = s.ctx ∧ t.phase = s.phase

/-! ## The invariant, the unspecified values, the digest -/

/-- R16, R17, R25: every step keeps the invariant: the buffer's cells stay in canonical form, and while a hasher is
in progress the digest length is legal, every byte below `buflen` has been written, the counter counts whole
blocks and an empty buffer means nothing has been absorbed. -/
def Obligations.StepKeepsInvariant : Prop :=
  ∀ s t : State, s.Inv → step s = .next t → t.Inv

/-- The invariant holds in State.reset. -/
def Obligations.ResetMeetsInvariant : Prop := State.reset.Inv

/-- R16, R23: what the spec leaves unspecified is never seen. From a state that meets the invariant and one that
differs from it only in unspecified values (every register outside ABSORBING, in ABSORBING the bytes of `buf`
from `buflen` up) a step gives results of one kind that again differ only so; the response channels are equal. -/
def Obligations.UnspecifiedIsNeverSeen : Prop :=
  ∀ s t : State, s.Inv → s.Agree t → Result.Agree (step s) (step t)

/-- R130: the closed form of a digest. From every state, a NEW with parameters in range, any UPDATEs and a FINALIZE
all succeed, and the last response carries the digest of the key block and the concatenated data. -/
def Obligations.DigestClosedForm : Prop :=
  ∀ (v : Variant) (ln : Bool) (dlen : Byte) (tree : Option TreeFields) (key salt pers : Bytes) (chunks : List Bytes)
    (s : State),
    ParametersInRange v dlen.toNat key.length salt.length pers.length →
    ∃ t u : State,
      execAll (.new v ln dlen tree key salt pers :: chunks.map Instr.update) s = .next t ∧
      exec .finalize t = .next u ∧ u.phase = .finalized ∧
      u.rsp = t.rsp ++ responseOf 0#8
        (closedDigest v
          (initialState v (paramBlock v dlen key.length (tree.getD ⟨1#8, 1#8, 0#32, 0#64, 0#8, 0#8⟩) salt pers))
          dlen.toNat ln
          ((if key.length = 0 then [] else key ++ List.replicate (v.BS - key.length) 0#8) ++ chunks.flatten))

/-- R25: between a NEW and its FINALIZE, with `n` bytes absorbed, key block included: the counter is `BS` times the
number of blocks compressed, taken modulo `2^(2W)`; the buffer is empty exactly when nothing has been absorbed; and
counter and buffer together count the bytes absorbed while these are fewer than `2^(2W)`. -/
def Obligations.AbsorbedBytesAreCounted : Prop :=
  ∀ (v : Variant) (ln : Bool) (dlen : Byte) (tree : Option TreeFields) (key salt pers : Bytes) (chunks : List Bytes)
    (s : State),
    ParametersInRange v dlen.toNat key.length salt.length pers.length →
    let n := (if key.length = 0 then 0 else v.BS) + chunks.flatten.length
    ∃ (t : State) (r : Regs v),
      execAll (.new v ln dlen tree key salt pers :: chunks.map Instr.update) s = .next t ∧ t.ctx = ⟨v, r⟩ ∧
      t.phase = .absorbing ∧ r.counter = v.BS * (blockCount v n - 1) % 2 ^ (2 * v.W) ∧
      (r.buflen.val = 0 ↔ n = 0) ∧ (n < 2 ^ (2 * v.W) → r.counter + r.buflen.val = n)

/-- R128: ONESHOT answers what the sequence NEW, UPDATE, FINALIZE answers; if its NEW is refused the result is
that refusal and nothing else is sent. -/
def Obligations.OneshotIsTheSequence : Prop :=
  ∀ (v : Variant) (dlen : Byte) (key data : Bytes) (s : State),
    (ParametersInRange v dlen.toNat key.length 0 0 →
      ∃ t u w : State, oneshot v dlen key data s = .next t ∧ t.phase = .finalized ∧
        execAll [.new v false dlen none key [] [], .update data] s = .next u ∧ exec .finalize u = .next w ∧
        w.ctx = t.ctx ∧ responseSince u w <:+ t.rsp) ∧
    (¬ ParametersInRange v dlen.toNat key.length 0 0 →
      oneshot v dlen key data s = .next { s with rsp := s.rsp ++ [0x01#8, 0#8, 0#8, 0#8] })
end

