-- ==== Sys2Proof/Laws/State.lean ====
section
/-! SUPPORT. What each update of the state and of the registers does to each field: one lemma per field per
update, so that no later proof unfolds a record update. -/

namespace Sys2Proof.Machine

/-! ## State updates -/

section StateUpdates
variable (s : State) (st : Status) (p : Bytes) (e : EngineError)

@[simp] theorem respond_phase : (s.respond st p).phase = s.phase := rfl
@[simp] theorem respond_ctx : (s.respond st p).ctx = s.ctx := rfl
@[simp] theorem respond_cmd : (s.respond st p).cmd = s.cmd := rfl
@[simp] theorem respond_rsp : (s.respond st p).rsp = s.rsp ++ responseBytes st p := rfl
@[simp] theorem respond_resetIn : (s.respond st p).resetIn = s.resetIn := rfl

@[simp] theorem raise_phase : (s.raise e).phase = s.phase := rfl
@[simp] theorem raise_ctx : (s.raise e).ctx = s.ctx := rfl
@[simp] theorem raise_cmd : (s.raise e).cmd = s.cmd := rfl
@[simp] theorem raise_rsp : (s.raise e).rsp = s.rsp ++ responseBytes e.status [] := rfl
@[simp] theorem raise_resetIn : (s.raise e).resetIn = s.resetIn := rfl

variable (r : Regs s.ctx.variant)

@[simp] theorem setRegs_phase : (s.setRegs r).phase = s.phase := rfl
@[simp] theorem setRegs_ctx : (s.setRegs r).ctx = ⟨s.ctx.variant, r⟩ := rfl
@[simp] theorem setRegs_cmd : (s.setRegs r).cmd = s.cmd := rfl
@[simp] theorem setRegs_rsp : (s.setRegs r).rsp = s.rsp := rfl
@[simp] theorem setRegs_resetIn : (s.setRegs r).resetIn = s.resetIn := rfl

variable (v : Variant) (q : Regs v)

@[simp] theorem install_phase : (s.install v q).phase = .absorbing := rfl
@[simp] theorem install_ctx : (s.install v q).ctx = ⟨v, q⟩ := rfl
@[simp] theorem install_cmd : (s.install v q).cmd = s.cmd := rfl
@[simp] theorem install_rsp : (s.install v q).rsp = s.rsp := rfl
@[simp] theorem install_resetIn : (s.install v q).resetIn = s.resetIn := rfl

@[simp] theorem endHasher_phase : s.endHasher.phase = .finalized := rfl
@[simp] theorem endHasher_ctx : s.endHasher.ctx = s.ctx := rfl
@[simp] theorem endHasher_cmd : s.endHasher.cmd = s.cmd := rfl
@[simp] theorem endHasher_rsp : s.endHasher.rsp = s.rsp := rfl
@[simp] theorem endHasher_resetIn : s.endHasher.resetIn = s.resetIn := rfl

@[simp] theorem holdReset_phase : s.holdReset.phase = .idle := rfl
@[simp] theorem holdReset_buf : s.holdReset.ctx.regs.buf = [] := rfl
@[simp] theorem holdReset_cmd : s.holdReset.cmd = s.cmd := rfl
@[simp] theorem holdReset_rsp : s.holdReset.rsp = s.rsp := rfl
@[simp] theorem holdReset_resetIn : s.holdReset.resetIn = s.resetIn := rfl

variable (bytes : Bytes)

@[simp] theorem hostSend_phase : (s.hostSend bytes).phase = s.phase := rfl
@[simp] theorem hostSend_ctx : (s.hostSend bytes).ctx = s.ctx := rfl
@[simp] theorem hostSend_cmd : (s.hostSend bytes).cmd = s.cmd ++ bytes := rfl
@[simp] theorem hostSend_rsp : (s.hostSend bytes).rsp = s.rsp := rfl
@[simp] theorem hostSend_resetIn : (s.hostSend bytes).resetIn = s.resetIn := rfl

@[simp] theorem hostAssertReset_phase : s.hostAssertReset.phase = s.phase := rfl
@[simp] theorem hostAssertReset_ctx : s.hostAssertReset.ctx = s.ctx := rfl
@[simp] theorem hostAssertReset_cmd : s.hostAssertReset.cmd = s.cmd := rfl
@[simp] theorem hostAssertReset_rsp : s.hostAssertReset.rsp = s.rsp := rfl
@[simp] theorem hostAssertReset_resetIn : s.hostAssertReset.resetIn = true := rfl

/-- A flush is part of a reset: with the input released it does nothing. -/
theorem hostFlush_released (h : s.resetIn = false) : s.hostFlush = s := by simp [State.hostFlush, h]
theorem hostFlush_asserted (h : s.resetIn = true) : s.hostFlush = { s with cmd := [] } := by simp [State.hostFlush, h]

theorem hostReleaseReset_released (h : s.resetIn = false) : s.hostReleaseReset = s := by
  simp [State.hostReleaseReset, h]
theorem hostReleaseReset_asserted (h : s.resetIn = true) :
    s.hostReleaseReset = { s.holdReset with resetIn := false } := by simp [State.hostReleaseReset, h]

end StateUpdates

/-! ## Register updates -/

section RegUpdates
variable {v : Variant} (r : Regs v) (k n : Nat) (s : Bytes) (f ln : Bool) (b : Byte)

@[simp] theorem memWrite_h : (r.memWrite k s).h = r.h := rfl
@[simp] theorem memWrite_t0 : (r.memWrite k s).t0 = r.t0 := rfl
@[simp] theorem memWrite_t1 : (r.memWrite k s).t1 = r.t1 := rfl
@[simp] theorem memWrite_buf : (r.memWrite k s).buf = r.buf.writeBytes k s := rfl
@[simp] theorem memWrite_buflen : (r.memWrite k s).buflen = r.buflen := rfl
@[simp] theorem memWrite_outlen : (r.memWrite k s).outlen = r.outlen := rfl
@[simp] theorem memWrite_lastNode : (r.memWrite k s).lastNode = r.lastNode := rfl
@[simp] theorem memWrite_epoch : (r.memWrite k s).epoch = r.epoch := rfl
@[simp] theorem memWrite_counter : (r.memWrite k s).counter = r.counter := rfl

@[simp] theorem counterAdd_h : (r.counterAdd n).h = r.h := rfl
@[simp] theorem counterAdd_buf : (r.counterAdd n).buf = r.buf := rfl
@[simp] theorem counterAdd_buflen : (r.counterAdd n).buflen = r.buflen := rfl
@[simp] theorem counterAdd_outlen : (r.counterAdd n).outlen = r.outlen := rfl
@[simp] theorem counterAdd_lastNode : (r.counterAdd n).lastNode = r.lastNode := rfl
@[simp] theorem counterAdd_epoch : (r.counterAdd n).epoch = r.epoch := rfl
@[simp] theorem counterAdd_memRead : (r.counterAdd n).memRead = r.memRead := rfl

@[simp] theorem compressBuf_h :
    (r.compressBuf f ln).h = compress v r.h (r.memRead 0 v.BS) r.t0 r.t1 f ln := rfl
@[simp] theorem compressBuf_t0 : (r.compressBuf f ln).t0 = r.t0 := rfl
@[simp] theorem compressBuf_t1 : (r.compressBuf f ln).t1 = r.t1 := rfl
@[simp] theorem compressBuf_buf : (r.compressBuf f ln).buf = r.buf := rfl
@[simp] theorem compressBuf_buflen : (r.compressBuf f ln).buflen = r.buflen := rfl
@[simp] theorem compressBuf_outlen : (r.compressBuf f ln).outlen = r.outlen := rfl
@[simp] theorem compressBuf_lastNode : (r.compressBuf f ln).lastNode = r.lastNode := rfl
@[simp] theorem compressBuf_epoch : (r.compressBuf f ln).epoch = r.epoch := rfl
@[simp] theorem compressBuf_counter : (r.compressBuf f ln).counter = r.counter := rfl

@[simp] theorem flush_h : r.flush.h =
    compress v r.h (r.memRead 0 v.BS) (r.counterAdd v.BS).t0 (r.counterAdd v.BS).t1 false false := rfl
@[simp] theorem flush_t0 : r.flush.t0 = (r.counterAdd v.BS).t0 := rfl
@[simp] theorem flush_t1 : r.flush.t1 = (r.counterAdd v.BS).t1 := rfl
@[simp] theorem flush_buf : r.flush.buf = r.buf := rfl
@[simp] theorem flush_buflen : r.flush.buflen = 0 := rfl
@[simp] theorem flush_outlen : r.flush.outlen = r.outlen := rfl
@[simp] theorem flush_lastNode : r.flush.lastNode = r.lastNode := rfl
@[simp] theorem flush_epoch : r.flush.epoch = r.epoch := rfl
@[simp] theorem flush_counter : r.flush.counter = (r.counterAdd v.BS).counter := rfl

variable (room : r.buflen.val < v.BS)

@[simp] theorem push_h : (r.push b room).h = r.h := rfl
@[simp] theorem push_t0 : (r.push b room).t0 = r.t0 := rfl
@[simp] theorem push_t1 : (r.push b room).t1 = r.t1 := rfl
@[simp] theorem push_buf : (r.push b room).buf = r.buf.write r.buflen b := rfl
@[simp] theorem push_buflen : (r.push b room).buflen.val = r.buflen.val + 1 := rfl
@[simp] theorem push_outlen : (r.push b room).outlen = r.outlen := rfl
@[simp] theorem push_lastNode : (r.push b room).lastNode = r.lastNode := rfl
@[simp] theorem push_epoch : (r.push b room).epoch = r.epoch := rfl
@[simp] theorem push_counter : (r.push b room).counter = r.counter := rfl

@[simp] theorem pad_h : r.pad.h = r.h := rfl
@[simp] theorem pad_t0 : r.pad.t0 = r.t0 := rfl
@[simp] theorem pad_t1 : r.pad.t1 = r.t1 := rfl
@[simp] theorem pad_buf : r.pad.buf = r.buf.writeBytes r.buflen (zeros (v.BS - r.buflen)) := rfl
@[simp] theorem pad_buflen : r.pad.buflen = r.buflen := rfl
@[simp] theorem pad_outlen : r.pad.outlen = r.outlen := rfl
@[simp] theorem pad_lastNode : r.pad.lastNode = r.lastNode := rfl
@[simp] theorem pad_epoch : r.pad.epoch = r.epoch := rfl
@[simp] theorem pad_counter : r.pad.counter = r.counter := rfl

@[simp] theorem close_h : r.close.h =
    compress v r.h (r.pad.memRead 0 v.BS) (r.counterAdd r.buflen).t0 (r.counterAdd r.buflen).t1 true r.lastNode := rfl
@[simp] theorem close_t0 : r.close.t0 = (r.counterAdd r.buflen).t0 := rfl
@[simp] theorem close_t1 : r.close.t1 = (r.counterAdd r.buflen).t1 := rfl
@[simp] theorem close_buf : r.close.buf = r.pad.buf := rfl
@[simp] theorem close_buflen : r.close.buflen = r.buflen := rfl
@[simp] theorem close_outlen : r.close.outlen = r.outlen := rfl
@[simp] theorem close_lastNode : r.close.lastNode = r.lastNode := rfl
@[simp] theorem close_epoch : r.close.epoch = r.epoch := rfl
@[simp] theorem close_counter : r.close.counter = (r.counterAdd r.buflen).counter := rfl

@[simp] theorem absorb_nil : r.absorb [] = r := rfl
@[simp] theorem absorb_cons : r.absorb (b :: s) = (r.absorbByte b).absorb s := rfl

end RegUpdates

end Sys2Proof.Machine
end

