-- ==== Sys2Proof/Laws/Memory.lean ====
section
/-! SUPPORT. The laws of the buffer's cells: a read after a write, and that every write keeps the canonical
form. -/

namespace Sys2Proof.Machine

/-- A read after a write of one byte. -/
theorem read?_write (m : Memory) (a a' : Nat) (b : Byte) :
    (m.write a b).read? a' = if a' = a then some b else m.read? a' := by
  induction m with
  | nil => simp [Memory.write, Memory.read?]
  | cons c m ih =>
    obtain ⟨x, d⟩ := c
    simp only [Memory.write]
    split
    · simp [Memory.read?]
    · split
      · subst_vars
        by_cases h : a' = x <;> simp [Memory.read?, h]
      · by_cases h : a' = x
        · subst h
          have : ¬a' = a := fun e => by omega
          simp [Memory.read?, this]
        · simp [Memory.read?, h, ih]

/-- A read after a write of consecutive bytes: inside them the byte written, outside what was there. -/
theorem read?_writeBytes (m : Memory) (a a' : Nat) (s : Bytes) :
    (m.writeBytes a s).read? a' = if a ≤ a' ∧ a' < a + s.length then s[a' - a]? else m.read? a' := by
  induction s generalizing m a with
  | nil =>
    simp [Memory.writeBytes]
  | cons b s ih =>
    rw [Memory.writeBytes, ih, read?_write]
    by_cases h : a' = a
    · subst h; simp
    · by_cases h' : a + 1 ≤ a' ∧ a' < a + 1 + s.length
      · have e : a' - a = (a' - (a + 1)) + 1 := by omega
        have : a ≤ a' ∧ a' < a + (b :: s).length := by simp; omega
        simp only [h', this, if_true, and_self]
        rw [e, List.getElem?_cons_succ]
      · have : ¬(a ≤ a' ∧ a' < a + (b :: s).length) := by simp; omega
        simp only [if_neg h', if_neg this, if_neg h]

/-- A write inside the bounds keeps a cell list rising. -/
theorem rising_write (m : Memory) (lo hi a : Nat) (b : Byte) (ha : lo ≤ a) (ha' : a < hi)
    (h : m.rising lo hi = true) : (m.write a b).rising lo hi = true := by
  induction m generalizing lo with
  | nil => simp [Memory.write, Memory.rising, ha, ha']
  | cons c m ih =>
    obtain ⟨x, d⟩ := c
    simp only [Memory.rising, Bool.and_eq_true, decide_eq_true_eq] at h
    obtain ⟨⟨h1, h2⟩, h3⟩ := h
    simp only [Memory.write]
    split
    · simp only [Memory.rising, Bool.and_eq_true, decide_eq_true_eq]
      exact ⟨⟨ha, ha'⟩, ⟨by omega, h2⟩, h3⟩
    · split
      · subst_vars; simp [Memory.rising, h1, h2, h3]
      · simp only [Memory.rising, Bool.and_eq_true, decide_eq_true_eq]
        exact ⟨⟨h1, h2⟩, ih (x + 1) (by omega) h3⟩

/-- A write inside the buffer keeps the canonical form. -/
theorem wf_write {bs : Nat} {m : Memory} (h : m.wf bs = true) {a : Nat} (ha : a < bs) (b : Byte) :
    (m.write a b).wf bs = true := rising_write m 0 bs a b (Nat.zero_le a) ha h

/-- A write of consecutive bytes inside the buffer keeps the canonical form. -/
theorem wf_writeBytes {bs : Nat} {m : Memory} (h : m.wf bs = true) {a : Nat} (s : Bytes) (ha : a + s.length ≤ bs) :
    (m.writeBytes a s).wf bs = true := by
  induction s generalizing m a with
  | nil => exact h
  | cons b s ih =>
    simp only [List.length_cons] at ha
    exact ih (wf_write h (by omega) b) (by omega)

/-- A buffer with no cell listed is in canonical form. -/
@[simp] theorem wf_nil (bs : Nat) : Memory.wf bs [] = true := rfl

/-- The memory of State.reset is in canonical form. -/
theorem reset_memory_wf : Memory.wf State.reset.ctx.variant.BS State.reset.ctx.regs.buf = true := rfl

/-! ## Reading registers after writing them -/

variable {v : Variant}

@[simp] theorem memRead_length (r : Regs v) (k n : Nat) : (r.memRead k n).length = n := by simp [Regs.memRead]

theorem memRead_getElem (r : Regs v) (k n j : Nat) (h : j < (r.memRead k n).length) :
    (r.memRead k n)[j] = r.readByte (k + j) := by simp [Regs.memRead]

/-- A byte read after a MemWrite. -/
theorem readByte_memWrite (r : Regs v) (k : Nat) (s : Bytes) (a : Nat) :
    (r.memWrite k s).readByte a = if h : k ≤ a ∧ a < k + s.length then s[a - k]'(by omega) else r.readByte a := by
  unfold Regs.readByte
  rw [memWrite_buf, read?_writeBytes, memWrite_epoch]
  by_cases h : k ≤ a ∧ a < k + s.length
  · have h' : a - k < s.length := by omega
    rw [if_pos h, dif_pos h, List.getElem?_eq_getElem h']
    rfl
  · rw [if_neg h, dif_neg h]

/-- A byte read after one more byte has been appended. -/
theorem readByte_push (r : Regs v) (b : Byte) (room : r.buflen.val < v.BS) (a : Nat) :
    (r.push b room).readByte a = if a = r.buflen.val then b else r.readByte a := by
  unfold Regs.readByte
  rw [push_buf, read?_write, push_epoch]
  split <;> rfl

/-- The padded block: what was below `buflen`, then zeros (R126). -/
theorem memRead_pad (r : Regs v) :
    r.pad.memRead 0 v.BS = r.memRead 0 r.buflen ++ zeros (v.BS - r.buflen) := by
  have hb : r.buflen.val ≤ v.BS := Nat.le_of_lt_succ r.buflen.isLt
  apply List.ext_getElem
  · simp [zeros]; omega
  · intro j h1 h2
    rw [memRead_getElem]
    have hj : j < v.BS := by simpa using h1
    unfold Regs.pad
    rw [readByte_memWrite]
    simp only [Nat.zero_add, zeros, List.length_replicate]
    by_cases h : j < r.buflen.val
    · have : ¬(r.buflen.val ≤ j ∧ j < r.buflen.val + (v.BS - r.buflen.val)) := by omega
      rw [dif_neg this, List.getElem_append_left (by simpa using h), memRead_getElem, Nat.zero_add]
    · have : r.buflen.val ≤ j ∧ j < r.buflen.val + (v.BS - r.buflen.val) := by omega
      rw [dif_pos this, List.getElem_append_right (by simp; omega)]
      simp

end Sys2Proof.Machine
end

