-- ==== Sys2Proof/Laws/Words.lean ====
section
/-! SUPPORT. The laws of the word operations and of the serializer of one word. -/

namespace Sys2Proof

/-! ## Integers and bytes (R7) -/

@[simp] theorem leBytes_length (n x : Nat) : (leBytes n x).length = n := by
  induction n generalizing x with
  | zero => rfl
  | succ n ih => simp [leBytes, ih]

@[simp] theorem zeros_length (n : Nat) : (zeros n).length = n := by simp [zeros]

/-- Byte `k` of `LE_n(x)`. -/
theorem leBytes_getElem? (n x k : Nat) (h : k < n) : (leBytes n x)[k]? = some (BitVec.ofNat 8 (x / 256 ^ k)) := by
  induction n generalizing x k with
  | zero => omega
  | succ n ih =>
    cases k with
    | zero => simp [leBytes]
    | succ k =>
      rw [leBytes, List.getElem?_cons_succ, ih _ _ (by omega), Nat.div_div_eq_div_mul, Nat.pow_succ']

theorem leNat_lt (s : Bytes) : leNat s < 256 ^ s.length := by
  induction s with
  | nil => simp [leNat]
  | cons b s ih =>
    have := b.isLt
    simp only [leNat, List.length_cons, Nat.pow_succ]
    omega

/-- `le(LE_n(x))` is `x` cut to `n` bytes. -/
theorem leNat_leBytes (n x : Nat) : leNat (leBytes n x) = x % 256 ^ n := by
  induction n generalizing x with
  | zero => simp [leBytes, leNat, Nat.mod_one]
  | succ n ih =>
    rw [leBytes, leNat, ih, Nat.pow_succ', Nat.mod_mul, BitVec.toNat_ofNat]

/-- `LE_n(le(s))` is `s` for a string of `n` bytes. -/
theorem leBytes_leNat (s : Bytes) : leBytes s.length (leNat s) = s := by
  induction s with
  | nil => rfl
  | cons b s ih =>
    have hb := b.isLt
    rw [List.length_cons, leBytes, leNat]
    have h1 : (b.toNat + 256 * leNat s) / 256 = leNat s := by omega
    have h2 : BitVec.ofNat 8 (b.toNat + 256 * leNat s) = b := by
      apply BitVec.eq_of_toNat_eq
      rw [BitVec.toNat_ofNat]
      omega
    rw [h1, h2, ih]

theorem leNat_append (s u : Bytes) : leNat (s ++ u) = leNat s + 256 ^ s.length * leNat u := by
  induction s with
  | nil => simp [leNat]
  | cons b s ih => simp only [List.cons_append, leNat, ih, List.length_cons, Nat.pow_succ']; ring

@[simp] theorem leNat_zeros (n : Nat) : leNat (zeros n) = 0 := by
  induction n with
  | zero => rfl
  | succ n ih => rw [zeros, List.replicate_succ, leNat]; simp [zeros] at ih; simp [ih]

/-! ## One word (R75, R76) -/

variable {v : Variant}

theorem wordBits (v : Variant) : 2 ^ v.W = 256 ^ v.WB := by cases v <;> rfl

@[simp] theorem wordToBytes_length (x : Word v) : (wordToBytes x).length = v.WB := leBytes_length _ _

theorem bytesToWord_wordToBytes (x : Word v) : bytesToWord v (wordToBytes x) = x := by
  apply BitVec.eq_of_toNat_eq
  rw [bytesToWord, BitVec.toNat_ofNat, wordToBytes, leNat_leBytes, wordBits, Nat.mod_mod]
  exact Nat.mod_eq_of_lt (wordBits v ▸ x.isLt)

theorem wordToBytes_bytesToWord (s : Bytes) (h : s.length = v.WB) : wordToBytes (bytesToWord v s) = s := by
  have hl := leNat_lt s
  rw [h, ← wordBits] at hl
  rw [wordToBytes, bytesToWord, BitVec.toNat_ofNat, Nat.mod_eq_of_lt hl, ← h, leBytes_leNat]

@[simp] theorem wordsToBytes_nil : wordsToBytes ([] : List (Word v)) = [] := rfl

@[simp] theorem wordsToBytes_cons (x : Word v) (ws : List (Word v)) :
    wordsToBytes (x :: ws) = wordToBytes x ++ wordsToBytes ws := rfl

@[simp] theorem wordsToBytes_length (ws : List (Word v)) : (wordsToBytes ws).length = ws.length * v.WB := by
  induction ws with
  | nil => simp
  | cons x ws ih => simp [ih]; ring

@[simp] theorem loadWords_toList (n : Nat) (s : Bytes) : (loadWords v n s).toList = bytesToWords v n s := rfl

/-- Two register files of words are equal if they serialize alike as lists. -/
theorem loadWords_eq {n : Nat} {s : Bytes} {x : Vector (Word v) n} (h : bytesToWords v n s = x.toList) :
    loadWords v n s = x := by
  apply Vector.toList_inj.mp
  rw [loadWords_toList, h]

end Sys2Proof
end

