-- ==== Sys2Proof/Laws/Regs.lean ====
section
/-! SUPPORT. What the shared operations on the registers do: the counter, one byte absorbed, a byte string
absorbed, the close of a hasher. -/

namespace Sys2Proof.Machine

variable {v : Variant}

/-! ## The counter (R15, R121) -/

theorem pow_two_W (v : Variant) : 2 ^ (2 * v.W) = 2 ^ v.W * 2 ^ v.W := by rw [Nat.two_mul, Nat.pow_add]

/-- The counter's value stays below `2^(2W)`. -/
theorem counter_lt (r : Regs v) : r.counter < 2 ^ (2 * v.W) := by
  have h0 := r.t0.isLt
  have h1 := r.t1.isLt
  have : 2 ^ v.W * r.t1.toNat + 2 ^ v.W ≤ 2 ^ v.W * 2 ^ v.W := by
    rw [← Nat.mul_succ]; exact Nat.mul_le_mul_left _ h1
  rw [pow_two_W, Regs.counter]
  omega

/-- `counter_add` on the counter's value (R121). -/
theorem counterAdd_counter (r : Regs v) (n : Nat) : (r.counterAdd n).counter = (r.counter + n) % 2 ^ (2 * v.W) := by
  have hT : (r.counter + n) % 2 ^ (2 * v.W) < 2 ^ v.W * 2 ^ v.W := by
    rw [← pow_two_W]; exact Nat.mod_lt _ (Nat.two_pow_pos _)
  have hq : (r.counter + n) % 2 ^ (2 * v.W) / 2 ^ v.W < 2 ^ v.W := Nat.div_lt_of_lt_mul hT
  conv_lhs => unfold Regs.counter Regs.counterAdd
  simp only [BitVec.toNat_ofNat, Nat.mod_mod, Nat.mod_eq_of_lt hq]
  exact Nat.mod_add_div _ _

/-- The limbs are a function of the counter's value. -/
theorem limbs_of_counter (r : Regs v) :
    r.t0 = BitVec.ofNat v.W (r.counter % 2 ^ (2 * v.W) % 2 ^ v.W) ∧
    r.t1 = BitVec.ofNat v.W (r.counter % 2 ^ (2 * v.W) / 2 ^ v.W) := by
  have h0 := r.t0.isLt
  have h1 := r.t1.isLt
  rw [Nat.mod_eq_of_lt (counter_lt r), Regs.counter]
  constructor <;> apply BitVec.eq_of_toNat_eq <;> rw [BitVec.toNat_ofNat]
  · rw [Nat.add_mul_mod_self_left, Nat.mod_mod, Nat.mod_eq_of_lt h0]
  · rw [Nat.add_mul_div_left _ _ (Nat.two_pow_pos _), Nat.div_eq_of_lt h0, Nat.zero_add, Nat.mod_eq_of_lt h1]

/-- `counter_add(0)` changes nothing (R121). -/
theorem counterAdd_zero (r : Regs v) : r.counterAdd 0 = r := by
  obtain ⟨h0, h1⟩ := limbs_of_counter r
  rw [Regs.counterAdd, Nat.add_zero, ← h0, ← h1]

/-- A block's bytes divide the counter's modulus. -/
theorem BS_dvd (v : Variant) : v.BS ∣ 2 ^ (2 * v.W) := by
  cases v
  · exact ⟨2 ^ 121, by norm_num⟩
  · exact ⟨2 ^ 58, by norm_num⟩

theorem BS_pos (v : Variant) : 0 < v.BS := by cases v <;> decide

/-! ## absorb (R122) -/

theorem buflen_le (r : Regs v) : r.buflen.val ≤ v.BS := Nat.le_of_lt_succ r.buflen.isLt

/-- What absorbing one byte can do: append it, or compress the full buffer and then append it. -/
theorem absorbByte_cases (r : Regs v) (b : Byte) :
    (∃ room : r.buflen.val < v.BS, r.absorbByte b = r.push b room) ∨
    (r.buflen.val = v.BS ∧ r.absorbByte b = r.flush.push b (flush_room r)) := by
  unfold Regs.absorbByte
  split
  · exact .inr ⟨‹_›, rfl⟩
  · exact .inl ⟨Nat.lt_of_le_of_ne (buflen_le r) ‹_›, rfl⟩

theorem absorbByte_room (r : Regs v) (b : Byte) (room : r.buflen.val < v.BS) : r.absorbByte b = r.push b room := by
  unfold Regs.absorbByte
  rw [dif_neg (Nat.ne_of_lt room)]

theorem absorbByte_full (r : Regs v) (b : Byte) (full : r.buflen.val = v.BS) :
    r.absorbByte b = r.flush.push b (flush_room r) := by
  unfold Regs.absorbByte
  rw [dif_pos full]

/-- `absorb` writes neither `outlen` nor `last_node`, and keeps the epoch. -/
theorem absorb_keeps (r : Regs v) (s : Bytes) :
    (r.absorb s).outlen = r.outlen ∧ (r.absorb s).lastNode = r.lastNode ∧ (r.absorb s).epoch = r.epoch := by
  induction s generalizing r with
  | nil => exact ⟨rfl, rfl, rfl⟩
  | cons b s ih =>
    rw [absorb_cons]
    obtain ⟨h1, h2, h3⟩ := ih (r.absorbByte b)
    rw [h1, h2, h3]
    obtain ⟨_, e⟩ | ⟨_, e⟩ := absorbByte_cases r b <;> rw [e] <;> exact ⟨rfl, rfl, rfl⟩

/-- `absorb` keeps the buffer's cells in canonical form. -/
theorem absorb_wf (r : Regs v) (s : Bytes) (h : r.buf.wf v.BS = true) : (r.absorb s).buf.wf v.BS = true := by
  induction s generalizing r with
  | nil => exact h
  | cons b s ih =>
    rw [absorb_cons]
    apply ih
    obtain ⟨room, e⟩ | ⟨_, e⟩ := absorbByte_cases r b <;> rw [e, push_buf]
    · exact wf_write h room b
    · exact wf_write h (flush_room r) b

/-- The close of a hasher keeps the buffer's cells in canonical form (R126). -/
theorem close_wf (r : Regs v) (h : r.buf.wf v.BS = true) : r.close.buf.wf v.BS = true := by
  rw [close_buf, pad_buf]
  apply wf_writeBytes h
  have := buflen_le r
  simp [zeros]
  omega

/-- Data that fits the buffer is appended and nothing is compressed (R122, R125). -/
theorem absorb_fits (r : Regs v) (s : Bytes) (h : r.buflen.val + s.length ≤ v.BS) :
    (r.absorb s).h = r.h ∧ (r.absorb s).t0 = r.t0 ∧ (r.absorb s).t1 = r.t1 ∧
    (r.absorb s).buflen.val = r.buflen.val + s.length ∧ (r.absorb s).buf = r.buf.writeBytes r.buflen s := by
  induction s generalizing r with
  | nil => exact ⟨rfl, rfl, rfl, rfl, rfl⟩
  | cons b s ih =>
    rw [List.length_cons] at h
    have room : r.buflen.val < v.BS := by omega
    rw [absorb_cons, absorbByte_room r b room]
    obtain ⟨h1, h2, h3, h4, h5⟩ := ih (r.push b room) (by rw [push_buflen]; omega)
    refine ⟨h1, h2, h3, ?_, ?_⟩
    · rw [h4, push_buflen, List.length_cons]; omega
    · rw [h5, push_buflen, push_buf]; rfl

/-- `absorb` of a concatenation is one `absorb` after the other (R122). -/
theorem absorb_append (r : Regs v) (s u : Bytes) : r.absorb (s ++ u) = (r.absorb s).absorb u := List.foldl_append

end Sys2Proof.Machine
end

