-- ==== Sys2Proof/Laws/Absorb.lean ====
section
/-! SUPPORT. What absorb leaves, said once (R122): the blocks it has compressed, the bytes it holds, the bytes of the
buffer it has not touched; and what the close of a hasher leaves (R126). -/

namespace Sys2Proof.Machine

variable {v : Variant}

/-! ## Limbs and blocks -/

/-- The limbs after `counter_add`, from a counter value known modulo `2^(2W)` (R121). -/
theorem counterAdd_limbs (r : Regs v) (m n : Nat) (h : r.counter = m % 2 ^ (2 * v.W)) :
    (r.counterAdd n).t0 = limbLow v (m + n) ∧ (r.counterAdd n).t1 = limbHigh v (m + n) := by
  simp only [Regs.counterAdd, limbLow, limbHigh, h, Nat.mod_add_mod, and_self]

theorem blockOf_append (D s : Bytes) (j : Nat) (h : v.BS * (j + 1) ≤ D.length) :
    blockOf v (D ++ s) (j + 1) = blockOf v D (j + 1) := by
  rw [Nat.mul_succ] at h
  simp only [blockOf, Nat.add_sub_cancel]
  rw [List.drop_append_of_le_length (by omega), List.take_append_of_le_length (by rw [List.length_drop]; omega)]

/-- The chain over the first `m` blocks does not see what follows them. -/
theorem chain_append (c : Nat) (h0 : Vector (Word v) 8) (D s : Bytes) (m : Nat) (h : v.BS * m ≤ D.length) :
    chain v c h0 (D ++ s) m = chain v c h0 D m := by
  simp only [chain]
  apply List.foldl_ext
  intro a j hj
  have := List.mem_range.mp hj
  rw [blockOf_append D s j (Nat.le_trans (Nat.mul_le_mul_left _ (by omega)) h)]

theorem chain_succ (c : Nat) (h0 : Vector (Word v) 8) (D : Bytes) (m : Nat) :
    chain v c h0 D (m + 1) = compress v (chain v c h0 D m) (blockOf v D (m + 1)) (limbLow v (c + v.BS * (m + 1)))
      (limbHigh v (c + v.BS * (m + 1))) false false := by
  simp only [chain, List.range_succ, List.foldl_append, List.foldl_cons, List.foldl_nil]

/-- The held bytes after one more has been appended. -/
theorem memRead_push (r : Regs v) (b : Byte) (room : r.buflen.val < v.BS) :
    (r.push b room).memRead 0 (r.buflen.val + 1) = r.memRead 0 r.buflen.val ++ [b] := by
  simp only [Regs.memRead, List.range_succ, List.map_append, List.map_cons, List.map_nil, Nat.zero_add]
  congr 1
  · apply List.map_congr_left
    intro j hj
    have := List.mem_range.mp hj
    rw [readByte_push, if_neg (by omega)]
  · rw [readByte_push, if_pos rfl]

/-! ## Absorbed data -/

/-- The registers `r` have absorbed the bytes `D` from the chaining state `h0` and the counter value `c`, and have
compressed the first `n` blocks of `D`. -/
structure Absorbed (c : Nat) (h0 : Vector (Word v) 8) (D : Bytes) (r : Regs v) (n : Nat) : Prop where
  len : r.buflen.val + v.BS * n = D.length
  pos : 0 < n → 0 < r.buflen.val
  counter : r.counter = (c + v.BS * n) % 2 ^ (2 * v.W)
  state : r.h = chain v c h0 D n
  held : r.memRead 0 r.buflen.val = D.drop (v.BS * n)

/-- Any registers have absorbed the bytes they hold. -/
theorem absorbed_held (r : Regs v) : Absorbed r.counter r.h (r.memRead 0 r.buflen.val) r 0 :=
  ⟨by simp, fun h => absurd h (Nat.lt_irrefl 0), by rw [Nat.mul_zero, Nat.add_zero, Nat.mod_eq_of_lt (counter_lt r)],
    rfl, rfl⟩

/-- The registers NEW writes have absorbed nothing (R123). -/
theorem absorbed_fresh (ln : Bool) (dlen : Byte) (P : Bytes) (e : Nat) :
    Absorbed 0 (initialState v P) [] (Regs.fresh v ln dlen P e) 0 :=
  ⟨rfl, fun h => absurd h (Nat.lt_irrefl 0), by simp [Regs.counter, Regs.fresh], rfl, rfl⟩

theorem absorbed_byte {c : Nat} {h0 : Vector (Word v) 8} {D : Bytes} {r : Regs v} {n : Nat} (a : Absorbed c h0 D r n)
    (b : Byte) : ∃ n', Absorbed c h0 (D ++ [b]) (r.absorbByte b) n' := by
  obtain ⟨len, pos, ctr, h, held⟩ := a
  obtain ⟨room, e⟩ | ⟨full, e⟩ := absorbByte_cases r b <;> rw [e]
  · refine ⟨n, ?_, ?_, ctr, ?_, ?_⟩
    · rw [push_buflen]; simp; omega
    · intro _; rw [push_buflen]; omega
    · rw [push_h, h, chain_append]; omega
    · rw [push_buflen, memRead_push, held, List.drop_append_of_le_length (by omega)]
  · have z : r.flush.buflen.val = 0 := rfl
    have hm : r.memRead 0 v.BS = blockOf v D (n + 1) := by
      rw [← full, held, blockOf, Nat.add_sub_cancel, List.take_of_length_le]
      simp; omega
    obtain ⟨l0, l1⟩ := counterAdd_limbs r (c + v.BS * n) v.BS ctr
    refine ⟨n + 1, ?_, ?_, ?_, ?_, ?_⟩
    · rw [push_buflen, z, Nat.mul_succ]; simp; omega
    · intro _; rw [push_buflen]; omega
    · rw [push_counter, flush_counter, counterAdd_counter, ctr, Nat.mod_add_mod, Nat.mul_succ, Nat.add_assoc]
    · rw [push_h, flush_h, h, hm, l0, l1, chain_append _ _ _ _ _ (by rw [Nat.mul_succ]; omega), chain_succ,
        Nat.mul_succ, Nat.add_assoc]
    · rw [push_buflen, memRead_push r.flush b (flush_room r), show r.flush.memRead 0 r.flush.buflen.val = [] from rfl,
        Nat.mul_succ, List.drop_append, List.drop_eq_nil_of_le (by omega), show v.BS * n + v.BS - D.length = 0 by omega]
      rfl

/-- Everything absorb does to `h`, `t`, `buflen` and the bytes held (R122). -/
theorem absorbed_absorb {c : Nat} {h0 : Vector (Word v) 8} {D : Bytes} {r : Regs v} {n : Nat} (a : Absorbed c h0 D r n)
    (s : Bytes) : ∃ n', Absorbed c h0 (D ++ s) (r.absorb s) n' := by
  induction s generalizing D r n with
  | nil => exact ⟨n, by rw [List.append_nil]; exact a⟩
  | cons b s ih =>
    obtain ⟨_, a1⟩ := absorbed_byte a b
    obtain ⟨n2, a2⟩ := ih a1
    exact ⟨n2, by rw [List.append_cons, absorb_cons]; exact a2⟩

/-- How many blocks have been compressed: all but the last, which is held (R125). -/
theorem absorbed_blocks {c : Nat} {h0 : Vector (Word v) 8} {D : Bytes} {r : Regs v} {n : Nat} (a : Absorbed c h0 D r n) :
    n = blockCount v D.length - 1 := by
  obtain ⟨len, pos, -, -, -⟩ := a
  have hb := buflen_le r
  have hBS := BS_pos v
  by_cases hz : r.buflen.val = 0
  · obtain rfl : n = 0 := by
      rcases Nat.eq_zero_or_pos n with h | h
      · exact h
      · have := pos h; omega
    rw [show D.length = 0 by omega, blockCount, Nat.div_eq_of_lt (by omega)]
  · have hN : blockCount v D.length = n + 1 := by
      rw [blockCount]
      apply Nat.div_eq_of_lt_le
      · rw [Nat.mul_comm, Nat.mul_succ]; omega
      · rw [Nat.mul_comm, Nat.mul_succ, Nat.mul_succ]; omega
    omega

/-- A byte of the buffer at which absorb stores nothing keeps its value (R122). -/
theorem absorb_frame (r : Regs v) (s : Bytes) (a : Nat) (h : ∀ j, j < s.length → (r.buflen.val + j) % v.BS ≠ a) :
    (r.absorb s).readByte a = r.readByte a := by
  induction s generalizing r with
  | nil => rfl
  | cons b s ih =>
    rw [absorb_cons]
    have h0 := h 0 (by simp)
    obtain ⟨room, e⟩ | ⟨full, e⟩ := absorbByte_cases r b <;> rw [e]
    · rw [ih, readByte_push, if_neg]
      · rw [Nat.add_zero, Nat.mod_eq_of_lt room] at h0
        exact fun e => h0 e.symm
      · intro j hj
        have := h (j + 1) (by simpa using hj)
        rw [push_buflen, Nat.add_right_comm]
        exact this
    · rw [ih, readByte_push, if_neg]
      · rfl
      · rw [Nat.add_zero, full, Nat.mod_self] at h0
        exact fun e => h0 e.symm
      · intro j hj
        have := h (j + 1) (by simpa using hj)
        rw [full, Nat.add_mod_left] at this
        rw [push_buflen, show r.flush.buflen.val = 0 from rfl, Nat.zero_add, Nat.add_comm]
        exact this

/-- Where absorb stores (R122): of the last `BS` bytes of the data, byte `j` is at `(buflen + j) mod BS`. -/
theorem absorb_stored (r : Regs v) (s : Bytes) (j : Nat) (hj : j < s.length) (hl : s.length ≤ j + v.BS) :
    (r.absorb s).readByte ((r.buflen.val + j) % v.BS) = s[j] := by
  have hBS := BS_pos v
  induction s generalizing r j with
  | nil => cases hj
  | cons b s ih =>
    rw [List.length_cons] at hj hl
    rw [absorb_cons]
    cases j with
    | zero =>
      have far (x k : Nat) (hk : k < s.length) : (x + 1 + k) % v.BS ≠ x % v.BS := by
        intro e
        have := Nat.sub_mod_eq_zero_of_mod_eq e
        rw [show x + 1 + k - x = k + 1 by omega, Nat.mod_eq_of_lt (by omega)] at this
        omega
      obtain ⟨room, e⟩ | ⟨full, e⟩ := absorbByte_cases r b <;> rw [e]
      · rw [absorb_frame _ _ _ (by rw [push_buflen]; exact far r.buflen.val), readByte_push,
          if_pos (by rw [Nat.add_zero, Nat.mod_eq_of_lt room])]
        rfl
      · rw [Nat.add_zero, full, Nat.mod_self, absorb_frame, readByte_push,
          if_pos (show 0 = r.flush.buflen.val from rfl)]
        · rfl
        · intro k hk
          have := far 0 k hk
          rwa [Nat.zero_mod] at this
    | succ j =>
      obtain ⟨room, e⟩ | ⟨full, e⟩ := absorbByte_cases r b <;> rw [e]
      · have := ih (r.push b room) j (by omega) (by omega)
        rwa [push_buflen, Nat.add_right_comm] at this
      · have := ih (r.flush.push b (flush_room r)) j (by omega) (by omega)
        rw [push_buflen, show r.flush.buflen.val = 0 from rfl, Nat.zero_add, Nat.add_comm 1] at this
        rw [full, Nat.add_mod_left]
        exact this

/-! ## The close of a hasher -/

/-- A byte of the buffer after the close: the padding is zeros, the rest keeps its value (R126). -/
theorem readByte_close (r : Regs v) (a : Nat) :
    r.close.readByte a = if r.buflen.val ≤ a ∧ a < v.BS then 0#8 else r.readByte a := by
  have hb := buflen_le r
  rw [show r.close.readByte a = r.pad.readByte a from rfl, Regs.pad, readByte_memWrite]
  by_cases h : r.buflen.val ≤ a ∧ a < v.BS
  · rw [dif_pos (by rw [zeros_length]; omega), if_pos h]
    simp [zeros]
  · rw [dif_neg (by rw [zeros_length]; omega), if_neg h]

/-- The state the close leaves after absorbing `D` from the start of a hasher (R126, R130). -/
theorem absorbed_close {h0 : Vector (Word v) 8} {D : Bytes} {r : Regs v} {n : Nat} (a : Absorbed 0 h0 D r n) :
    r.close.h = closedState v h0 r.lastNode D := by
  have hn := absorbed_blocks a
  obtain ⟨len, -, ctr, h, held⟩ := a
  have hBS := BS_pos v
  rw [Nat.zero_add] at ctr
  obtain ⟨l0, l1⟩ := counterAdd_limbs r (v.BS * n) r.buflen ctr
  rw [close_h, memRead_pad, l0, l1, h, closedState, held, show v.BS * n + r.buflen.val = D.length by omega]
  by_cases hz : D.length = 0
  · have n0 : v.BS * n = 0 := by omega
    obtain rfl : n = 0 := by rcases Nat.mul_eq_zero.mp n0 with h | h <;> omega
    rw [if_pos hz, hz, show r.buflen.val = 0 by omega, List.drop_eq_nil_of_le (by omega)]
    simp [chain, limbLow, limbHigh]
  · rw [if_neg hz]
    simp only [List.length_drop]
    rw [← hn, show D.length - v.BS * n = r.buflen.val by omega]

end Sys2Proof.Machine
end

