-- ==== Sys2Proof/Laws/Compression.lean ====
section
/-! SUPPORT. The law of the working vector: a word read after one word has been written. -/

namespace Sys2Proof.Machine

/-- A working word after a write of one working word. -/
theorem getElem_setWord {v : Variant} (w : Vector (Word v) 16) (i k : Fin 16) (x : Word v) :
    (w.set i x)[k] = if k = i then x else w[k] := by
  simp only [Fin.getElem_fin, Vector.getElem_set, Fin.ext_iff, eq_comm]

end Sys2Proof.Machine
end

