-- ==== Sys2Proof/Laws/Decode.lean ====
section
/-! SUPPORT. The laws of the decoder: when bytes have arrived, and the fields of a header as numbers. -/

namespace Sys2Proof

theorem arrived_iff (n : Nat) (s : Bytes) : arrived n s = true ↔ n ≤ s.length := by
  induction n generalizing s with
  | zero => simp [arrived]
  | succ n ih => cases s with
    | nil => simp [arrived]
    | cons b s => simp [arrived, ih]

/-! ## Header fields as quotients of the header's value -/

theorem opField_toNat (H : BitVec 64) : (opField H).toNat = H.toNat % 256 := by
  simp [opField, BitVec.extractLsb'_toNat]

theorem dlenField_toNat (H : BitVec 64) : (dlenField H).toNat = H.toNat / 2 ^ 16 % 256 := by
  simp [dlenField, BitVec.extractLsb'_toNat, Nat.shiftRight_eq_div_pow]

theorem klenField_eq (H : BitVec 64) : klenField H = H.toNat / 2 ^ 24 % 256 := by
  simp [klenField, BitVec.extractLsb'_toNat, Nat.shiftRight_eq_div_pow]

theorem slenField_eq (H : BitVec 64) : slenField H = H.toNat / 2 ^ 32 % 256 := by
  simp [slenField, BitVec.extractLsb'_toNat, Nat.shiftRight_eq_div_pow]

theorem plenField_eq (H : BitVec 64) : plenField H = H.toNat / 2 ^ 40 % 256 := by
  simp [plenField, BitVec.extractLsb'_toNat, Nat.shiftRight_eq_div_pow]

theorem lenField_eq (H : BitVec 64) : lenField H = H.toNat / 2 ^ 32 % 2 ^ 32 := by
  simp [lenField, BitVec.extractLsb'_toNat, Nat.shiftRight_eq_div_pow]

/-- One bit of a header, as a number. -/
theorem headerBit (H : BitVec 64) (i : Nat) : H.getLsbD i = decide (H.toNat / 2 ^ i % 2 = 1) := by
  rw [BitVec.getLsbD, Nat.testBit_eq_decide_div_mod_eq]

theorem bit9_eq (H : BitVec 64) : bit9 H = decide (H.toNat / 2 ^ 9 % 2 = 1) := headerBit H 9

theorem bit10_eq (H : BitVec 64) : bit10 H = decide (H.toNat / 2 ^ 10 % 2 = 1) := headerBit H 10

theorem variantField_eq (H : BitVec 64) : variantField H = if H.toNat / 2 ^ 8 % 2 = 1 then .S else .B := by
  simp only [variantField, headerBit, decide_eq_true_eq]

theorem extract_eq_zero (H : BitVec 64) (k n : Nat) : H.extractLsb' k n = 0#n ↔ H.toNat / 2 ^ k % 2 ^ n = 0 := by
  rw [← BitVec.toNat_inj, BitVec.extractLsb'_toNat, Nat.shiftRight_eq_div_pow]
  simp

/-- The opcode map as numbers (R46). -/
theorem opOf_eq_some (H : BitVec 64) (o : Op) :
    opOf H = some o ↔ H.toNat % 256 = (match o with | .new => 1 | .update => 2 | .finalize => 3 | .compress => 4) := by
  have h := opField_toNat H
  have e (b : Byte) : opField H = b ↔ H.toNat % 256 = b.toNat := by rw [← BitVec.toNat_inj, h]
  simp only [opOf, e, BitVec.toNat_ofNat]
  cases o <;> split_ifs <;> simp <;> omega

/-- The reserved fields as numbers (R47 to R50). -/
theorem reservedClear_iff (o : Op) (H : BitVec 64) :
    reservedClear o H = true ↔
      (match o with
        | .new => H.toNat / 2 ^ 11 % 2 ^ 5 = 0 ∧ H.toNat / 2 ^ 48 % 2 ^ 16 = 0
        | .update => H.toNat / 2 ^ 8 % 2 ^ 24 = 0
        | .finalize => H.toNat / 2 ^ 8 % 2 ^ 56 = 0
        | .compress => H.toNat / 2 ^ 11 % 2 ^ 53 = 0) := by
  cases o <;> simp only [reservedClear, Bool.and_eq_true, decide_eq_true_eq, extract_eq_zero]

/-- The decoder, once the header is known to be legal for `o` and the payload is there (R58). -/
theorem decode_legal {s : Bytes} {o : Op} (h8 : 8 ≤ s.length) (ho : opOf (headerOf s) = some o)
    (hr : reservedClear o (headerOf s) = true) (hp : payloadLength o (headerOf s) + 8 ≤ s.length) :
    decode s = .command (assemble o (headerOf s) ((s.drop 8).take (payloadLength o (headerOf s))))
      ((s.drop 8).drop (payloadLength o (headerOf s))) := by
  have h1 : arrived 8 s = true := (arrived_iff 8 s).mpr h8
  have h2 : arrived (payloadLength o (headerOf s)) (s.drop 8) = true :=
    (arrived_iff _ _).mpr (by rw [List.length_drop]; omega)
  simp only [decode, h1, ho, hr, h2, if_true]

/-- What the decoder can answer, and when (R57, R58). -/
theorem decode_cases (s : Bytes) :
    (s.length < 8 ∧ decode s = .truncated) ∨
    (8 ≤ s.length ∧ (∀ o, ¬(opOf (headerOf s) = some o ∧ reservedClear o (headerOf s) = true)) ∧
      ∃ why, decode s = .illegal why (s.drop 8)) ∨
    (∃ o, 8 ≤ s.length ∧ opOf (headerOf s) = some o ∧ reservedClear o (headerOf s) = true ∧
      s.length < payloadLength o (headerOf s) + 8 ∧ decode s = .truncated) ∨
    (∃ o, 8 ≤ s.length ∧ opOf (headerOf s) = some o ∧ reservedClear o (headerOf s) = true ∧
      payloadLength o (headerOf s) + 8 ≤ s.length ∧
      decode s = .command (assemble o (headerOf s) ((s.drop 8).take (payloadLength o (headerOf s))))
        ((s.drop 8).drop (payloadLength o (headerOf s)))) := by
  by_cases h8 : 8 ≤ s.length
  · have h1 : arrived 8 s = true := (arrived_iff 8 s).mpr h8
    cases ho : opOf (headerOf s) with
    | none =>
      refine .inr (.inl ⟨h8, by simp, .unassignedOp, ?_⟩)
      simp only [decode, h1, ho, if_true]
    | some o =>
      by_cases hr : reservedClear o (headerOf s) = true
      · by_cases hp : payloadLength o (headerOf s) + 8 ≤ s.length
        · exact .inr (.inr (.inr ⟨o, h8, rfl, hr, hp, decode_legal h8 ho hr hp⟩))
        · refine .inr (.inr (.inl ⟨o, h8, rfl, hr, by omega, ?_⟩))
          have h2 : ¬ arrived (payloadLength o (headerOf s)) (s.drop 8) = true := by
            rw [arrived_iff, List.length_drop]; omega
          simp only [decode, h1, ho, hr, if_true, if_neg h2]
      · refine .inr (.inl ⟨h8, ?_, .reservedBit, ?_⟩)
        · rintro o' ⟨e, e'⟩
          cases e
          exact hr e'
        · simp only [decode, h1, ho, if_true, if_neg hr]
  · have h1 : ¬ arrived 8 s = true := by rw [arrived_iff]; omega
    exact .inl ⟨by omega, by simp only [decode, if_neg h1]⟩

/-! ## What the encoder writes -/

theorem encodeHeader_length (i : Instr) : (encodeHeader i).length = 8 := by cases i <;> simp [encodeHeader]

/-- The flag byte as a number (R47, R50). -/
theorem flagByte_toNat (a b c : Bool) : (flagByte a b c).toNat = a.toNat + 2 * b.toNat + 4 * c.toNat := by
  cases a <;> cases b <;> cases c <;> rfl

/-- The header of a string that opens with eight given bytes is their little-endian value (R45). -/
theorem headerOf_append (hd rest : Bytes) (h : hd.length = 8) : (headerOf (hd ++ rest)).toNat = leNat hd := by
  have hl := leNat_lt hd
  rw [h] at hl
  rw [headerOf, List.take_append_of_le_length (by omega), List.take_of_length_le (by omega), BitVec.toNat_ofNat]
  exact Nat.mod_eq_of_lt hl

/-- A descriptor has TDBYTES bytes (R52). -/
theorem treeBytes_length (v : Variant) (t : TreeFields) : (treeBytes v t).length = v.TDBYTES := by
  cases v <;> simp [treeBytes] <;> rfl

/-- Reading a bit whose value is known. -/
theorem bit_of_value (n k : Nat) (b : Bool) (h : n / 2 ^ k % 2 = b.toNat) : decide (n / 2 ^ k % 2 = 1) = b := by
  rw [h]; cases b <;> rfl

end Sys2Proof
end

