-- ==== Sys2Proof/Laws/Exec.lean ====
section
/-! SUPPORT. What each meaning and the step can answer, said once: every later proof cites these instead of unfolding
`exec` and `step`. -/

namespace Sys2Proof.Machine

/-! ## The response (R55) -/

theorem status_code_le (st : Status) : st.code.toNat ≤ 3 := by cases st <;> decide

/-- A response is its status byte, its length byte and two zero bytes, then the payload. -/
theorem responseBytes_eq (st : Status) (p : Bytes) (h : p.length < 256) :
    responseBytes st p = responseOf st.code p := by
  have hc := status_code_le st
  have e0 : BitVec.ofNat 8 (st.code.toNat + 256 * p.length) = st.code := by
    apply BitVec.eq_of_toNat_eq; rw [BitVec.toNat_ofNat]; omega
  have e1 : (st.code.toNat + 256 * p.length) / 256 = p.length := by omega
  have e2 : p.length / 256 = 0 := by omega
  simp only [responseBytes, responseOf, leBytes, e0, e1, e2, Nat.zero_div]

@[simp] theorem responseBytes_nil (st : Status) : responseBytes st [] = [st.code, 0#8, 0#8, 0#8] := by
  rw [responseBytes_eq st [] (by simp)]; rfl

/-- The serialized state has at most 64 bytes. -/
theorem stateBytes_length (h : Vector (Word v) 8) : (wordsToBytes h.toList).length = 8 * v.WB := by simp

theorem stateBytes_le (h : Vector (Word v) 8) : (wordsToBytes h.toList).length ≤ 64 := by
  rw [stateBytes_length]; cases v <;> decide

theorem digest_length_le (r : Regs v) : r.digest.length ≤ 64 := by
  rw [Regs.digest, List.length_take]
  exact Nat.le_trans (Nat.min_le_right _ _) (stateBytes_le r.h)

/-! ## The meanings -/

theorem paramValid_iff (v : Variant) (dlen klen slen plen : Nat) :
    paramValid v dlen klen slen plen = true ↔ ParametersInRange v dlen klen slen plen := by
  simp [paramValid, ParametersInRange, and_assoc]

/-- The registers a NEW with parameters in range leaves (R123, R124). -/
def newRegs (v : Variant) (ln : Bool) (dlen : Byte) (tree : Option TreeFields) (key salt pers : Bytes) (epoch : Nat) : Regs v :=
  (Regs.fresh v ln dlen (paramBlock v dlen key.length (tree.getD defaultTree) salt pers) epoch).absorb (keyBlock v key)

/-- NEW with parameters in range. -/
theorem execNew_valid {dlen : Byte} {key salt pers : Bytes}
    (h : ParametersInRange v dlen.toNat key.length salt.length pers.length) (ln : Bool) (tree : Option TreeFields) (s : State) :
    execNew v ln dlen tree key salt pers s =
      .next ((s.install v (newRegs v ln dlen tree key salt pers (s.ctx.regs.epoch + 1))).respond .ok []) := by
  rw [execNew, if_pos ((paramValid_iff ..).mpr h)]
  rfl

/-- NEW with a parameter out of range. -/
theorem execNew_invalid {dlen : Byte} {key salt pers : Bytes}
    (h : ¬ ParametersInRange v dlen.toNat key.length salt.length pers.length) (ln : Bool) (tree : Option TreeFields)
    (s : State) : execNew v ln dlen tree key salt pers s = .next (s.raise .invalidParameter) := by
  rw [execNew, if_neg (fun e => h ((paramValid_iff ..).mp e))]

theorem execUpdate_absorbing {s : State} (h : s.phase = .absorbing) (data : Bytes) :
    execUpdate data s = .next ((s.setRegs (s.ctx.regs.absorb data)).respond .ok []) := if_pos h

theorem execUpdate_refused {s : State} (h : s.phase ≠ .absorbing) (data : Bytes) :
    execUpdate data s = .next (s.raise .invalidState) := if_neg h

theorem execFinalize_absorbing {s : State} (h : s.phase = .absorbing) :
    execFinalize s = .next ((s.setRegs s.ctx.regs.close).endHasher.respond .ok s.ctx.regs.close.digest) := if_pos h

theorem execFinalize_refused {s : State} (h : s.phase ≠ .absorbing) :
    execFinalize s = .next (s.raise .invalidState) := if_neg h

/-- Everything a command can do: install a hasher, absorb, close, answer only, or raise an error. -/
theorem exec_cases (i : Instr) (s : State) :
    (∃ v ln dlen tree key salt pers, i = .new v ln dlen tree key salt pers ∧
      ParametersInRange v dlen.toNat key.length salt.length pers.length ∧
      exec i s = .next ((s.install v (newRegs v ln dlen tree key salt pers (s.ctx.regs.epoch + 1))).respond .ok [])) ∨
    (∃ v ln dlen tree key salt pers, i = .new v ln dlen tree key salt pers ∧
      ¬ ParametersInRange v dlen.toNat key.length salt.length pers.length ∧
      exec i s = .next (s.raise .invalidParameter)) ∨
    (∃ data, i = .update data ∧ s.phase = .absorbing ∧
      exec i s = .next ((s.setRegs (s.ctx.regs.absorb data)).respond .ok [])) ∨
    (i = .finalize ∧ s.phase = .absorbing ∧
      exec i s = .next ((s.setRegs s.ctx.regs.close).endHasher.respond .ok s.ctx.regs.close.digest)) ∨
    (needsHasher i = true ∧ s.phase ≠ .absorbing ∧ exec i s = .next (s.raise .invalidState)) ∨
    (∃ v f ln h block t0 t1, i = .compress v f ln h block t0 t1 ∧
      exec i s = .next (s.respond .ok (wordsToBytes (compress v h block t0 t1 f ln).toList))) := by
  cases i with
  | new v ln dlen tree key salt pers =>
    by_cases h : ParametersInRange v dlen.toNat key.length salt.length pers.length
    · exact .inl ⟨v, ln, dlen, tree, key, salt, pers, rfl, h, execNew_valid h ln tree s⟩
    · exact .inr (.inl ⟨v, ln, dlen, tree, key, salt, pers, rfl, h, execNew_invalid h ln tree s⟩)
  | update data =>
    by_cases h : s.phase = .absorbing
    · exact .inr (.inr (.inl ⟨data, rfl, h, execUpdate_absorbing h data⟩))
    · exact .inr (.inr (.inr (.inr (.inl ⟨rfl, h, execUpdate_refused h data⟩))))
  | finalize =>
    by_cases h : s.phase = .absorbing
    · exact .inr (.inr (.inr (.inl ⟨rfl, h, execFinalize_absorbing h⟩)))
    · exact .inr (.inr (.inr (.inr (.inl ⟨rfl, h, execFinalize_refused h⟩))))
  | compress v f ln h block t0 t1 =>
    exact .inr (.inr (.inr (.inr (.inr ⟨v, f, ln, h, block, t0, t1, rfl, rfl⟩))))

/-! ## The step -/

/-- Everything a step can do. -/
theorem step_cases (s : State) :
    (s.resetIn = true ∧ step s = .next s.holdReset) ∨
    (s.resetIn = false ∧ s.cmd = [] ∧ step s = .fault .awaitingCommand) ∨
    (s.resetIn = false ∧ s.cmd ≠ [] ∧ decode s.cmd = .truncated ∧ step s = .fault .truncatedCommand) ∨
    (∃ why rest, s.resetIn = false ∧ decode s.cmd = .illegal why rest ∧
      step s = .next (State.raise { s with cmd := rest } .illegalCommand)) ∨
    (∃ i rest, s.resetIn = false ∧ decode s.cmd = .command i rest ∧ step s = exec i { s with cmd := rest }) := by
  unfold step fetch
  cases hr : s.resetIn with
  | true => exact .inl ⟨rfl, rfl⟩
  | false =>
    by_cases hc : s.cmd = []
    · refine .inr (.inl ⟨rfl, hc, ?_⟩)
      simp [hc]
    · cases hd : decode s.cmd with
      | truncated => exact .inr (.inr (.inl ⟨rfl, hc, rfl, by simp [hc]⟩))
      | illegal why rest => exact .inr (.inr (.inr (.inl ⟨why, rest, rfl, rfl, by simp [hc]⟩)))
      | command i rest => exact .inr (.inr (.inr (.inr ⟨i, rest, rfl, rfl, by simp [hc]⟩)))

end Sys2Proof.Machine
end

