-- ==== Sys2Proof/Laws/Oneshot.lean ====
section
/-! SUPPORT. The laws of command sequences: what every command leaves alone, sequences one after the other, and the
pieces of ONESHOT. -/

namespace Sys2Proof.Machine

/-- Every command completes, and leaves the command channel and the reset input alone (R40, R168). -/
theorem exec_completes (i : Instr) (s : State) : ∃ t, exec i s = .next t ∧ t.cmd = s.cmd ∧ t.resetIn = s.resetIn := by
  obtain ⟨v, ln, dlen, tree, key, salt, pers, _, _, e⟩ | ⟨v, ln, dlen, tree, key, salt, pers, _, _, e⟩ | ⟨data, _, _, e⟩ |
    ⟨_, _, e⟩ | ⟨_, _, e⟩ | ⟨v, f, ln, h, block, t0, t1, _, e⟩ := exec_cases i s <;> exact ⟨_, e, rfl, rfl⟩

/-- Executing a concatenation of command lists. -/
theorem execAll_append {a : List Instr} {s t : State} (h : execAll a s = .next t) (b : List Instr) :
    execAll (a ++ b) s = execAll b t := by
  induction a generalizing s with
  | nil => cases h; rfl
  | cons i a ih =>
    rw [List.cons_append, execAll]
    rw [execAll] at h
    cases e : exec i s with
    | next s' => rw [e] at h; exact ih h
    | fault e' => rw [e] at h; cases h
    | refused e' => rw [e] at h; cases h

/-- The pieces of some data put together again (R61). -/
theorem pieces_flatten (k : Nat) (hk : 0 < k) (fuel : Nat) (d : Bytes) (h : d.length ≤ fuel) :
    (pieces k fuel d).flatten = d := by
  induction fuel generalizing d with
  | zero =>
    obtain rfl : d = [] := List.length_eq_zero_iff.mp (by omega)
    rfl
  | succ n ih =>
    rw [pieces]
    split
    · rename_i h0
      rw [List.length_eq_zero_iff.mp h0]
      rfl
    · rw [List.flatten_cons, ih _ (by rw [List.length_drop]; omega), List.take_append_drop]

end Sys2Proof.Machine
end

