-- ==== Sys2Proof/Laws/Operands.lean ====
section
/-! SUPPORT. The laws of NEW's operands: the bounds that R86 gives, and the length of the key block. -/

namespace Sys2Proof.Machine

/-- Parameters in range bound the digest length and the key (R86): both fit their registers. -/
theorem inRange_bounds (v : Variant) {dlen klen slen plen : Nat} (h : ParametersInRange v dlen klen slen plen) :
    1 ≤ dlen ∧ dlen ≤ v.OUTMAX ∧ dlen < 128 ∧ klen ≤ v.BS := by
  obtain ⟨⟨h1, h2⟩, h3, _⟩ := h
  cases v
  · have h2 : dlen ≤ 64 := h2
    have h3 : klen ≤ 64 := h3
    exact ⟨h1, h2, by omega, Nat.le_trans h3 (by decide)⟩
  · have h2 : dlen ≤ 32 := h2
    have h3 : klen ≤ 32 := h3
    exact ⟨h1, h2, by omega, Nat.le_trans h3 (by decide)⟩

/-- The key block is empty or one whole block (R124). -/
theorem keyBlock_length (v : Variant) (key : Bytes) (h : key.length ≤ v.BS) :
    (keyBlock v key).length = if key.length = 0 then 0 else v.BS := by
  unfold keyBlock
  split
  · rfl
  · rw [List.length_append, zeros_length]; omega

end Sys2Proof.Machine
end

