-- ==== Sys2Proof/Laws/PerInstr.lean ====
section
/-! SUPPORT. Framing, command by command: the header of a command that has an encoding is legal for its opcode and
names the length of its payload (R45 to R51). -/

namespace Sys2Proof.Laws.Framing

/-- The encoded header is legal and its `plen` is the number of payload bytes the encoder writes. -/
def Statement (i : Instr) : Prop :=
  WellFormed i → ∃ o, opOf (headerOf (encodeHeader i)) = some o ∧ reservedClear o (headerOf (encodeHeader i)) = true ∧
    payloadLength o (headerOf (encodeHeader i)) = (encodePayload i).length

/-- The header's value, as the number its bytes encode. -/
theorem header_value (i : Instr) : (headerOf (encodeHeader i)).toNat = leNat (encodeHeader i) := by
  have h := headerOf_append (encodeHeader i) [] (encodeHeader_length i)
  rwa [List.append_nil] at h

theorem new (v : Variant) (ln : Bool) (dlen : Byte) (tree : Option TreeFields) (key salt pers : Bytes) :
    Statement (.new v ln dlen tree key salt pers) := by
  intro wf
  simp only [WellFormed, Instr.wellFormed, Bool.and_eq_true, decide_eq_true_eq] at wf
  obtain ⟨⟨⟨_, wk⟩, ws⟩, wp⟩ := wf
  have hd := dlen.isLt
  have hH := header_value (.new v ln dlen tree key salt pers)
  generalize headerOf (encodeHeader (.new v ln dlen tree key salt pers)) = H at hH ⊢
  simp only [encodeHeader, leNat, flagByte_toNat, BitVec.toNat_ofNat] at hH
  have f0 := Bool.toNat_lt (variantBit v)
  have f1 := Bool.toNat_lt ln
  have f2 := Bool.toNat_lt tree.isSome
  have hv : variantField H = v := by
    rw [variantField_eq]
    have : H.toNat / 2 ^ 8 % 2 = (variantBit v).toNat := by omega
    rw [this]
    cases v <;> rfl
  have h10 : bit10 H = tree.isSome := by
    rw [bit10_eq]
    exact bit_of_value _ _ _ (by omega)
  have hk : klenField H = key.length := by rw [klenField_eq]; omega
  have hs : slenField H = salt.length := by rw [slenField_eq]; omega
  have hp : plenField H = pers.length := by rw [plenField_eq]; omega
  refine ⟨.new, ?_, ?_, ?_⟩
  · rw [opOf_eq_some]; simp only; omega
  · rw [reservedClear_iff]; simp only; omega
  · cases tree <;> simp [payloadLength, encodePayload, h10, hv, hk, hs, hp, treeBytes_length, Nat.add_assoc]

theorem update (data : Bytes) : Statement (.update data) := by
  intro wf
  simp only [WellFormed, Instr.wellFormed, decide_eq_true_eq] at wf
  have hH := header_value (.update data)
  generalize headerOf (encodeHeader (.update data)) = H at hH ⊢
  simp only [encodeHeader, leNat_append, leNat_leBytes] at hH
  rw [show leNat [2#8, 0#8, 0#8, 0#8] = 2 from rfl, show [2#8, 0#8, 0#8, 0#8].length = 4 from rfl] at hH
  refine ⟨.update, ?_, ?_, ?_⟩
  · rw [opOf_eq_some]; simp only; omega
  · rw [reservedClear_iff]; simp only; omega
  · simp only [payloadLength, lenField_eq, encodePayload]; omega

theorem finalize : Statement .finalize := fun _ => ⟨.finalize, by decide, by decide, rfl⟩

theorem compress (v : Variant) (f ln : Bool) (h : Vector (Word v) 8) (block : Bytes) (t0 t1 : Word v) :
    Statement (.compress v f ln h block t0 t1) := by
  intro wf
  simp only [WellFormed, Instr.wellFormed, decide_eq_true_eq] at wf
  have hH := header_value (.compress v f ln h block t0 t1)
  generalize headerOf (encodeHeader (.compress v f ln h block t0 t1)) = H at hH ⊢
  simp only [encodeHeader, leNat, flagByte_toNat, BitVec.toNat_ofNat] at hH
  have f0 := Bool.toNat_lt (variantBit v)
  have f1 := Bool.toNat_lt f
  have f2 := Bool.toNat_lt ln
  have hv : variantField H = v := by
    rw [variantField_eq]
    have : H.toNat / 2 ^ 8 % 2 = (variantBit v).toNat := by omega
    rw [this]
    cases v <;> rfl
  refine ⟨.compress, ?_, ?_, ?_⟩
  · rw [opOf_eq_some]; simp only; omega
  · rw [reservedClear_iff]; simp only; omega
  · simp [payloadLength, encodePayload, hv, wf]; omega

end Sys2Proof.Laws.Framing
end

