-- ==== Sys2Proof/Machine/Text.lean ====
section
/-! DEFINITION. The textual form of a command (R60), as a list of characters. The form is the spec's notation for
examples and no part of the hardware (D30). -/

namespace Sys2Proof.Machine

/-- One hexadecimal digit. -/
def hexDigit (n : Nat) : Char := "0123456789abcdef".toList.getD n '0'

/-- A byte string in hexadecimal, first byte leftmost (R7). -/
def hexText (s : Bytes) : List Char := s.flatMap fun b => [hexDigit (b.toNat / 16), hexDigit (b.toNat % 16)]

/-- The decimal digits of `n`, most significant first; `fuel` bounds their number. -/
def decimalDigits : Nat → Nat → List Char → List Char
  | 0, _, acc => acc
  | fuel + 1, n, acc =>
    if n < 10 then hexDigit n :: acc else decimalDigits fuel (n / 10) (hexDigit (n % 10) :: acc)

/-- A number in decimal. -/
def decimalText (n : Nat) : List Char := decimalDigits 24 n []

/-- A word as a number in hexadecimal, most significant digit first (R6). -/
def wordText {v : Variant} (x : Word v) : List Char := "0x".toList ++ hexText (wordToBytes x).reverse

/-- `.B` or `.S` (R60). -/
def variantText : Variant → List Char
  | .B => ".B".toList
  | .S => ".S".toList

/-- ` name=<hex>`, left out when the bytes are absent (R60). -/
def optionText (name : String) (s : Bytes) : List Char := if s.length = 0 then [] else name.toList ++ hexText s

/-- ` tree=(...)`, left out when the descriptor is absent (R60). -/
def treeText : Option TreeFields → List Char
  | none => []
  | some t => " tree=(".toList ++ ",".toList.intercalate
      [decimalText t.fanout.toNat, decimalText t.depth.toNat, decimalText t.leafLength.toNat,
        decimalText t.nodeOffset.toNat, decimalText t.nodeDepth.toNat, decimalText t.innerLength.toNat] ++ ")".toList

/-- A command as R60 writes it. -/
def commandText : Instr → List Char
  | .new v ln dlen tree key salt pers =>
      "NEW".toList ++ variantText v ++ " dlen=".toList ++ decimalText dlen.toNat ++ optionText " key=" key
        ++ optionText " salt=" salt ++ optionText " pers=" pers ++ treeText tree
        ++ (if ln then " last".toList else [])
  | .update data => "UPDATE ".toList ++ hexText data
  | .finalize => "FINALIZE".toList
  | .compress v f ln h block t0 t1 =>
      "COMPRESS".toList ++ variantText v ++ " h=(".toList ++ ",".toList.intercalate (h.toList.map wordText)
        ++ ") block=".toList ++ hexText block ++ " t=(".toList ++ wordText t0 ++ ",".toList ++ wordText t1
        ++ ")".toList ++ (if f then " final".toList else []) ++ (if ln then " last".toList else [])

end Sys2Proof.Machine
end

