-- ==== Sys2Proof/Tests/Slice0.lean ====
section
/-! SUPPORT. Tests: ill-formed commands refused, words written out from the spec decoded, single steps against the
spec's own vectors, and a witness for the hypotheses of every statement. -/

namespace Sys2Proof.Tests

open Sys2Proof.Machine

/-! ## States -/

/-- The registers of a hasher started by a NEW with default parameters and the largest digest length. -/
def newHasher (v : Variant) : Regs v :=
  Regs.fresh v false (BitVec.ofNat 8 v.OUTMAX) (paramBlock v (BitVec.ofNat 8 v.OUTMAX) 0 defaultTree [] []) 1

/-- The engine in a phase, with some registers and nothing on its channels. -/
def engine (p : Phase) (v : Variant) (r : Regs v) : State := ⟨p, ⟨v, r⟩, [], [], false⟩

/-- A hasher of variant `v` that has absorbed some bytes. -/
def hashing (v : Variant) (s : Bytes) : State := engine .absorbing v ((newHasher v).absorb s)

/-- The engine with bytes on its command channel. -/
def withCmd (s : State) (c : Bytes) : State := { s with cmd := c }

/-- The bytes 0, 1, ..., `n - 1`. -/
def count (n : Nat) : Bytes := (List.range n).map (BitVec.ofNat 8)

/-- "abc". -/
def abc : Bytes := [0x61#8, 0x62#8, 0x63#8]

/-- The state a result carries. -/
def after : Result → State
  | .next s => s
  | .fault _ => State.reset
  | .refused _ => State.reset

/-! ## Ill-formed commands -/

theorem test_wf_tree : ¬ WellFormed (.new .S false 32#8 (some ⟨1#8, 1#8, 0#32, 0x1000000000000#64, 0#8, 0#8⟩) [] [] []) ∧
    WellFormed (.new .S false 32#8 (some ⟨1#8, 1#8, 0#32, 0xFFFFFFFFFFFF#64, 0#8, 0#8⟩) [] [] []) := by decide

theorem test_wf_key : ¬ WellFormed (.new .B false 64#8 none (zeros 256) [] []) ∧
    WellFormed (.new .B false 64#8 none (zeros 255) [] []) := by decide +kernel

theorem test_wf_salt : ¬ WellFormed (.new .B false 64#8 none [] (zeros 256) []) ∧
    WellFormed (.new .B false 64#8 none [] (zeros 255) []) := by decide +kernel

theorem test_wf_pers : ¬ WellFormed (.new .B false 64#8 none [] [] (zeros 256)) ∧
    WellFormed (.new .B false 64#8 none [] [] (zeros 255)) := by decide +kernel

theorem test_wf_update (s : Bytes) (h : s.length = 2 ^ 32) : ¬ WellFormed (.update s) := by
  simp [WellFormed, Instr.wellFormed, h]

theorem test_wf_block : ¬ WellFormed (.compress .S false false (iv .S) (zeros 63) 0#32 0#32) ∧
    ¬ WellFormed (.compress .B false false (iv .B) (zeros 129) 0#64 0#64) ∧
    WellFormed (.compress .S false false (iv .S) (zeros 64) 0#32 0#32) := by decide

/-! ## Decoding words written out from 30_encoding.md, 95_test_vectors.md section 6 and 97_test_programs.md -/

/-- P6: OP 01; byte 1 = 0000 0110 (V = 0, LN = 1, TP = 1); DLEN 20, KLEN 04, SLEN 10, PLEN 10; the descriptor
`0202 00100000 0100000000000000 00 20`, the key, salt a0..af, personalization c0..cf. -/
theorem test_decode_new_b : decode
    ([0x01#8, 0b00000110#8, 0x20#8, 0x04#8, 0x10#8, 0x10#8, 0x00#8, 0x00#8,
      0x02#8, 0x02#8, 0x00#8, 0x10#8, 0x00#8, 0x00#8, 0x01#8, 0x00#8, 0x00#8, 0x00#8, 0x00#8, 0x00#8, 0x00#8, 0x00#8,
      0x00#8, 0x20#8, 0x6b#8, 0x65#8, 0x79#8, 0x21#8]
      ++ (List.range 16).map (fun i => BitVec.ofNat 8 (0xa0 + i)) ++ (List.range 16).map (fun i => BitVec.ofNat 8 (0xc0 + i))) =
    .command (.new .B true 32#8 (some ⟨2#8, 2#8, 4096#32, 1#64, 0#8, 32#8⟩) [0x6b#8, 0x65#8, 0x79#8, 0x21#8]
      ((List.range 16).map fun i => BitVec.ofNat 8 (0xa0 + i)) ((List.range 16).map fun i => BitVec.ofNat 8 (0xc0 + i))) [] := by
  decide

/-- P6s: byte 1 = 0000 0111 (V = 1, LN = 1, TP = 1); the descriptor of 14 bytes `0202 00100000 010000000000 00 20`. -/
theorem test_decode_new_s : decode
    ([0x01#8, 0b00000111#8, 0x10#8, 0x04#8, 0x08#8, 0x08#8, 0x00#8, 0x00#8,
      0x02#8, 0x02#8, 0x00#8, 0x10#8, 0x00#8, 0x00#8, 0x01#8, 0x00#8, 0x00#8, 0x00#8, 0x00#8, 0x00#8, 0x00#8, 0x20#8,
      0x6b#8, 0x65#8, 0x79#8, 0x21#8]
      ++ (List.range 8).map (fun i => BitVec.ofNat 8 (0xa0 + i)) ++ (List.range 8).map (fun i => BitVec.ofNat 8 (0xc0 + i))) =
    .command (.new .S true 16#8 (some ⟨2#8, 2#8, 4096#32, 1#64, 0#8, 32#8⟩) [0x6b#8, 0x65#8, 0x79#8, 0x21#8]
      ((List.range 8).map fun i => BitVec.ofNat 8 (0xa0 + i)) ((List.range 8).map fun i => BitVec.ofNat 8 (0xc0 + i))) [] := by
  decide

/-- `UPDATE` with LEN in bytes 4 to 7: `02 00 00 00 03 00 00 00 61 62 63`, and LEN = 0 with a byte after it. -/
theorem test_decode_update :
    decode [0x02#8, 0#8, 0#8, 0#8, 0x03#8, 0#8, 0#8, 0#8, 0x61#8, 0x62#8, 0x63#8] = .command (.update abc) [] ∧
    decode [0x02#8, 0#8, 0#8, 0#8, 0x00#8, 0#8, 0#8, 0#8, 0x61#8] = .command (.update []) [0x61#8] ∧
    lenField (headerOf [0x02#8, 0#8, 0#8, 0#8, 0xff#8, 0xff#8, 0xff#8, 0xff#8]) = 4294967295 := by decide

theorem test_decode_finalize :
    decode [0x03#8, 0#8, 0#8, 0#8, 0#8, 0#8, 0#8, 0#8] = .command .finalize [] := by decide

/-- `COMPRESS.S final`: byte 1 = 0000 0011; state words 0 to 7 are 1 to 8, the block 0..63, t0 = 9, t1 = 0x01020304. -/
theorem test_decode_compress : decode
    ([0x04#8, 0b00000011#8, 0#8, 0#8, 0#8, 0#8, 0#8, 0#8]
      ++ [1#8, 0#8, 0#8, 0#8, 2#8, 0#8, 0#8, 0#8, 3#8, 0#8, 0#8, 0#8, 4#8, 0#8, 0#8, 0#8, 5#8, 0#8, 0#8, 0#8, 6#8, 0#8, 0#8,
        0#8, 7#8, 0#8, 0#8, 0#8, 8#8, 0#8, 0#8, 0#8] ++ count 64 ++ [9#8, 0#8, 0#8, 0#8] ++ [4#8, 3#8, 2#8, 1#8] ++ [0xee#8]) =
    .command (.compress .S true false #v[1#32, 2#32, 3#32, 4#32, 5#32, 6#32, 7#32, 8#32] (count 64) 9#32 0x01020304#32)
      [0xee#8] := by decide

/-- `0406…` is COMPRESS.B with F and LN, `0404…` with LN alone; their payload has 208 bytes. -/
theorem test_decode_compress_flags :
    payloadLength .compress (headerOf [0x04#8, 0x06#8, 0#8, 0#8, 0#8, 0#8, 0#8, 0#8]) = 208 ∧
    payloadLength .compress (headerOf [0x04#8, 0x07#8, 0#8, 0#8, 0#8, 0#8, 0#8, 0#8]) = 104 ∧
    bit9 (headerOf [0x04#8, 0x06#8, 0#8, 0#8, 0#8, 0#8, 0#8, 0#8]) = true ∧
    bit10 (headerOf [0x04#8, 0x06#8, 0#8, 0#8, 0#8, 0#8, 0#8, 0#8]) = true ∧
    bit9 (headerOf [0x04#8, 0x04#8, 0#8, 0#8, 0#8, 0#8, 0#8, 0#8]) = false := by decide

/-- The illegal headers of 95_test_vectors.md section 6. -/
theorem test_decode_illegal :
    decode [0x00#8, 0#8, 0#8, 0#8, 0#8, 0#8, 0#8, 0#8] = .illegal .unassignedOp [] ∧
    decode [0x05#8, 0#8, 0#8, 0#8, 0#8, 0#8, 0#8, 0#8] = .illegal .unassignedOp [] ∧
    decode [0xff#8, 0#8, 0#8, 0#8, 0#8, 0#8, 0#8, 0#8] = .illegal .unassignedOp [] ∧
    decode [0x01#8, 0xff#8, 0#8, 0xff#8, 0xff#8, 0xff#8, 0xff#8, 0#8] = .illegal .reservedBit [] ∧
    decode [0x03#8, 0x01#8, 0#8, 0#8, 0#8, 0#8, 0#8, 0#8] = .illegal .reservedBit [] ∧
    decode [0x03#8, 0#8, 0#8, 0#8, 0x01#8, 0#8, 0#8, 0#8] = .illegal .reservedBit [] ∧
    decode [0x01#8, 0x08#8, 0x40#8, 0#8, 0#8, 0#8, 0#8, 0#8] = .illegal .reservedBit [] ∧
    decode [0x01#8, 0x80#8, 0x40#8, 0#8, 0#8, 0#8, 0#8, 0#8] = .illegal .reservedBit [] ∧
    decode [0x01#8, 0#8, 0x40#8, 0#8, 0#8, 0#8, 0x01#8, 0#8] = .illegal .reservedBit [] ∧
    decode [0x01#8, 0#8, 0x40#8, 0#8, 0#8, 0#8, 0#8, 0x80#8] = .illegal .reservedBit [] ∧
    decode [0x02#8, 0x01#8, 0#8, 0#8, 0#8, 0#8, 0#8, 0#8] = .illegal .reservedBit [] ∧
    decode [0x02#8, 0#8, 0#8, 0x01#8, 0x03#8, 0#8, 0#8, 0#8] = .illegal .reservedBit [] ∧
    decode [0x04#8, 0x08#8, 0#8, 0#8, 0#8, 0#8, 0#8, 0#8] = .illegal .reservedBit [] ∧
    decode [0x04#8, 0#8, 0x01#8, 0#8, 0#8, 0#8, 0#8, 0#8] = .illegal .reservedBit [] ∧
    decode [0x04#8, 0#8, 0#8, 0#8, 0#8, 0#8, 0#8, 0x80#8] = .illegal .reservedBit [] := by decide

/-- The table words of the four rows, through the host's helpers. -/
theorem test_table_words :
    decodeTableWord 64 0x0000000000400001 = some (.new .B false 64#8 none [] [] []) ∧
    decodeTableWord 64 2 = some (.update []) ∧ decodeTableWord 64 3 = some .finalize ∧
    decodeTableWord 64 0x104 = some (.compress .S false false #v[0, 0, 0, 0, 0, 0, 0, 0] (zeros 64) 0#32 0#32) ∧
    decodeTableWord 64 0 = none := by decide +kernel

/-! ## Single steps against the spec's vectors -/

/-- P1: `NEW.B dlen=64` from reset (R123). -/
theorem test_new_abc :
    let t := after (step (withCmd State.reset [0x01#8, 0#8, 0x40#8, 0#8, 0#8, 0#8, 0#8, 0#8]))
    t.phase = .absorbing ∧ t.rsp = [0#8, 0#8, 0#8, 0#8] ∧ t.cmd = [] ∧ t.ctx.variant = .B ∧
    t.ctx = ⟨.B, newHasher .B⟩ ∧
    (newHasher .B).h = #v[0x6a09e667f2bdc948#64, 0xbb67ae8584caa73b#64, 0x3c6ef372fe94f82b#64, 0xa54ff53a5f1d36f1#64,
      0x510e527fade682d1#64, 0x9b05688c2b3e6c1f#64, 0x1f83d9abfb41bd6b#64, 0x5be0cd19137e2179#64] := by decide

/-- P2: `NEW.S dlen=32 key=000102..1f` leaves the key block in the buffer, uncompressed (R124). -/
theorem test_new_keyed :
    let t := after (step (withCmd State.reset
      ([0x01#8, 0x01#8, 0x20#8, 0x20#8, 0#8, 0#8, 0#8, 0#8] ++ count 32)))
    t.rsp = [0#8, 0#8, 0#8, 0#8] ∧ t.ctx.regs.buflen.val = 64 ∧ t.ctx.regs.counter = 0 ∧
    t.ctx.regs.buf = (List.range 64).zip (count 32 ++ zeros 32) ∧
    (t.ctx.regs.h)[0].toNat = 0x6b08c647 := by decide +kernel

/-- PB11 and PB13: the S parameter block with a tree descriptor (R89, R92). -/
theorem test_param_block_s :
    paramBlock .S 32#8 0 ⟨2#8, 3#8, 0x11223344#32, 0x010203040506#64, 4#8, 32#8⟩ [] [] =
      [0x20#8, 0x00#8, 0x02#8, 0x03#8, 0x44#8, 0x33#8, 0x22#8, 0x11#8, 0x06#8, 0x05#8, 0x04#8, 0x03#8, 0x02#8, 0x01#8,
        0x04#8, 0x20#8] ++ zeros 16 ∧
    initialState .S (paramBlock .S 32#8 0 ⟨0#8, 0#8, 0#32, 0xffffffffffff#64, 0#8, 0#8⟩ [] []) =
      #v[0x6a09e647#32, 0xbb67ae85#32, 0xc3910c8d#32, 0xa54f0ac5#32, 0x510e527f#32, 0x9b05688c#32, 0x1f83d9ab#32,
        0x5be0cd19#32] := by decide

/-- PB8: the B parameter block with salt and personalization (R88). -/
theorem test_param_block_b :
    initialState .B (paramBlock .B 48#8 0 defaultTree ((List.range 16).map fun i => BitVec.ofNat 8 (0xa0 + i))
        ((List.range 16).map fun i => BitVec.ofNat 8 (0xc0 + i))) =
      #v[0x6a09e667f2bdc938#64, 0xbb67ae8584caa73b#64, 0x3c6ef372fe94f82b#64, 0xa54ff53a5f1d36f1#64,
        0xf6a8f7db0e442371#64, 0x34abc5208094c5b7#64, 0xd8451c6f38837cab#64, 0x942e00d5d8b4e8b1#64] := by decide

/-- P3: 128 bytes fill the buffer and nothing is compressed (R163). -/
theorem test_update_lookahead :
    let t := after (exec (.update (count 128)) (hashing .B []))
    t.ctx.regs.buflen.val = 128 ∧ t.ctx.regs.counter = 0 ∧ (t.ctx.regs.h)[0].toNat = 0x6a09e667f2bdc948 ∧
    t.rsp = [0#8, 0#8, 0#8, 0#8] := by decide +kernel

/-- P3: the 129th byte compresses the held block under `t = 0x80` (R122). -/
theorem test_update_full :
    let t := after (exec (.update [0x80#8]) (hashing .B (count 128)))
    t.ctx.regs.buflen.val = 1 ∧ t.ctx.regs.counter = 128 ∧ t.ctx.regs.readByte 0 = 0x80#8 ∧
    (t.ctx.regs.h)[0].toNat = 0xffa0852a267eb85a ∧ (t.ctx.regs.h)[7].toNat = 0xe96b7e8825d0f5a7 := by decide +kernel

/-- P1s: FINALIZE after "abc", S: the digest of 95_test_vectors.md (R126). -/
theorem test_finalize_abc :
    let t := after (exec .finalize (hashing .S abc))
    t.phase = .finalized ∧ t.ctx.regs.counter = 3 ∧ t.ctx.regs.buflen.val = 3 ∧
    t.rsp = [0x00#8, 0x20#8, 0#8, 0#8,
      0x50#8, 0x8c#8, 0x5e#8, 0x8c#8, 0x32#8, 0x7c#8, 0x14#8, 0xe2#8, 0xe1#8, 0xa7#8, 0x2b#8, 0xa3#8, 0x4e#8, 0xeb#8,
      0x45#8, 0x2f#8, 0x37#8, 0x45#8, 0x8b#8, 0x20#8, 0x9e#8, 0xd6#8, 0x3a#8, 0x29#8, 0x4d#8, 0x99#8, 0x9b#8, 0x4c#8,
      0x86#8, 0x67#8, 0x59#8, 0x82#8] := by decide +kernel

/-- P0: FINALIZE with nothing absorbed, B: the first eight bytes of the digest of the empty message. -/
theorem test_finalize_empty :
    (after (exec .finalize (hashing .B []))).rsp.take 12 =
      [0x00#8, 0x40#8, 0#8, 0#8, 0x78#8, 0x6a#8, 0x02#8, 0xf7#8, 0x42#8, 0x01#8, 0x59#8, 0x03#8] := by decide +kernel

/-- P5: the COMPRESS.S of the hash of "abc", in IDLE (R127). -/
theorem test_compress_abc :
    (after (exec (.compress .S true false (newHasher .S).h (abc ++ zeros 61) 3#32 0#32) State.reset)).rsp.take 12 =
      [0x00#8, 0x20#8, 0#8, 0#8, 0x50#8, 0x8c#8, 0x5e#8, 0x8c#8, 0x32#8, 0x7c#8, 0x14#8, 0xe2#8] := by decide +kernel

/-- P5: COMPRESS.B of zeros with the counter all ones, final and last. -/
theorem test_compress_last :
    (after (exec (.compress .B true true #v[0, 0, 0, 0, 0, 0, 0, 0] (zeros 128) (BitVec.allOnes 64) (BitVec.allOnes 64))
      State.reset)).rsp.take 12 =
      [0x00#8, 0x40#8, 0#8, 0#8, 0x31#8, 0xa3#8, 0x2e#8, 0xf6#8, 0xc1#8, 0x02#8, 0x5e#8, 0x2b#8] := by decide +kernel

/-- P4: the errors, from reset and in the middle of a hash. -/
theorem test_errors :
    (after (exec .finalize State.reset)).rsp = [2#8, 0#8, 0#8, 0#8] ∧
    (after (exec (.update []) State.reset)).rsp = [2#8, 0#8, 0#8, 0#8] ∧
    (after (exec (.new .B false 65#8 none [] [] []) (hashing .B abc))).rsp = [1#8, 0#8, 0#8, 0#8] ∧
    (after (exec (.new .S false 32#8 none [] (zeros 16) []) (hashing .B abc))).rsp = [1#8, 0#8, 0#8, 0#8] ∧
    (after (exec (.new .B false 0#8 none [] [] []) (hashing .B abc))).phase = .absorbing ∧
    after (step (withCmd State.reset [0x05#8, 0#8, 0#8, 0#8, 0#8, 0#8, 0#8, 0#8, 0x03#8])) =
      { State.reset with cmd := [0x03#8], rsp := [3#8, 0#8, 0#8, 0#8] } := by decide

/-- 95_test_vectors.md section 4, first row: the first G of the hash of "abc", B. -/
theorem test_mix :
    let w : Vector (Word .B) 16 := (((Vector.replicate 16 0#64).set 0 0x6a09e667f2bdc948#64).set 4 0x510e527fade682d1#64
      |>.set 8 0x6a09e667f3bcc908#64).set 12 0x510e527fade682d2#64
    let u := mixG .B w 0 4 8 12 0x636261#64 0#64
    u[0] = 0xf0c9aa0f86491dea#64 ∧ u[4] = 0xb7defc3d0277e11f#64 ∧ u[8] = 0xee5e0f39647a9fff#64 ∧
    u[12] = 0x7772fc2886a76c5f#64 := by decide

/-- The texts of R60. -/
theorem test_text :
    commandText (.new .B true 64#8 (some ⟨2#8, 2#8, 4096#32, 1#64, 0#8, 32#8⟩) [0x6b#8, 0x65#8] [] []) =
      "NEW.B dlen=64 key=6b65 tree=(2,2,4096,1,0,32) last".toList ∧
    commandText (.update abc) = "UPDATE 616263".toList ∧ commandText .finalize = "FINALIZE".toList ∧
    commandText (.compress .S true false #v[0, 0, 0, 0, 0, 0, 0, 0x6b08e647] [0xab#8] 3#32 0#32) =
      ("COMPRESS.S h=(0x00000000,0x00000000,0x00000000,0x00000000,0x00000000,0x00000000,0x00000000,0x6b08e647)"
        ++ " block=ab t=(0x00000003,0x00000000) final").toList := by decide +kernel

/-! ## Witnesses: the hypotheses of every statement can be met -/

theorem witness_WorkedEncodings : (zeros 32).length = 32 ∧ (zeros 64).length = 64 ∧ (zeros 104).length = 104 := by decide

/-- With a descriptor, its node_offset at the top of S's range, and different lengths; without one; all empty. -/
theorem witness_NewFromTheChannel :
    let tree : Option TreeFields := some ⟨2#8, 3#8, 0x11223344#32, 0xffffffffffff#64, 4#8, 32#8⟩
    (zeros 1).length = (1#8).toNat ∧ (zeros 8).length = (8#8).toNat ∧ (zeros 255).length = (255#8).toNat ∧
    (zeros 0).length = (0#8).toNat ∧ (∀ t ∈ tree, Variant.S = .S → t.nodeOffset.toNat < 2 ^ 48) ∧
    (∀ t ∈ (none : Option TreeFields), Variant.S = .S → t.nodeOffset.toNat < 2 ^ 48) := by
  refine ⟨by decide, by decide, by decide +kernel, by decide, ?_, by simp⟩
  intro t ht _
  cases Option.mem_some.mp ht
  decide

theorem witness_UpdateFromTheChannel : abc.length = (3#32).toNat ∧ ([] : Bytes).length = (0#32).toNat := by decide

theorem witness_DecodeOfEncode :
    WellFormed (.new .S true 255#8 (some ⟨0#8, 255#8, 0xffffffff#32, 0xffffffffffff#64, 255#8, 0#8⟩) (zeros 255) (zeros 255)
      (zeros 255)) ∧
    WellFormed (.update []) ∧ WellFormed (.update abc) ∧ WellFormed .finalize ∧
    WellFormed (.compress .B true true (iv .B) (zeros 128) 0#64 (BitVec.allOnes 64)) := by decide +kernel

theorem witness_EncodeOfDecode :
    decode ([0x02#8, 0#8, 0#8, 0#8, 0x01#8, 0#8, 0#8, 0#8, 0x61#8] ++ [7#8]) = .command (.update [0x61#8]) [7#8] := by decide

theorem witness_LegalHeaderIsTableRow :
    matchesRow .new 0x00001010ff200601#64 ∧ matchesRow .update 0xffffffff00000002#64 ∧ matchesRow .finalize 3#64 ∧
    matchesRow .compress 0x0704#64 ∧ (0x0700#64).toNat % 256 = 0 ∧ 5 ≤ (0x05#64).toNat % 256 ∧ 5 ≤ (0xff#64).toNat % 256 := by
  decide

/-- No row matches a header. -/
theorem no_row (H : BitVec 64) (h : ¬ matchesRow .new H ∧ ¬ matchesRow .update H ∧ ¬ matchesRow .finalize H ∧
    ¬ matchesRow .compress H) : ∀ o, ¬ matchesRow o H := by
  intro o
  cases o
  · exact h.1
  · exact h.2.1
  · exact h.2.2.1
  · exact h.2.2.2

/-- Each clause: no row; a row and one byte too few (0 of 1); a row and just enough. -/
theorem witness_DecodeConsumesWhatTheHeaderSays :
    let hd0 : Bytes := [0x05#8, 0#8, 0#8, 0#8, 0#8, 0#8, 0#8, 0#8]
    let hd1 : Bytes := [0x02#8, 0#8, 0#8, 0#8, 1#8, 0#8, 0#8, 0#8]
    hd0.length = 8 ∧ (∀ o, ¬ matchesRow o (headerOf hd0)) ∧ hd1.length = 8 ∧ matchesRow .update (headerOf hd1) ∧
    ([] : Bytes).length < payloadLength .update (headerOf hd1) ∧
    payloadLength .update (headerOf hd1) ≤ ([0x61#8] : Bytes).length :=
  ⟨by decide, no_row _ (by decide), by decide, by decide, by decide, by decide⟩

theorem witness_StepRunsDecoded :
    let s := withCmd State.reset [0x03#8, 0#8, 0#8, 0#8, 0#8, 0#8, 0#8, 0#8, 9#8]
    s.resetIn = false ∧ decode s.cmd = .command .finalize [9#8] := by decide

theorem witness_CommandStreamRunsInOrder :
    let is : List Instr := [.new .B false 64#8 none [] [] [], .update abc, .finalize]
    let s := withCmd State.reset (is.flatMap encode)
    (∀ i ∈ is, WellFormed i) ∧ s.resetIn = false ∧ s.cmd = is.flatMap encode := by decide

/-- Cut before the first byte, inside the header, and before the last payload byte. -/
theorem witness_TruncatedCommandWaits :
    WellFormed (.update [0x61#8]) ∧
    (encode (.update [0x61#8]) = [] ++ encode (.update [0x61#8]) ∧ encode (.update [0x61#8]) ≠ []) ∧
    encode (.update [0x61#8]) = [0x02#8, 0#8, 0#8] ++ [0#8, 1#8, 0#8, 0#8, 0#8, 0x61#8] ∧
    encode (.update [0x61#8]) = [0x02#8, 0#8, 0#8, 0#8, 1#8, 0#8, 0#8, 0#8] ++ [0x61#8] ∧
    (withCmd State.reset [0x02#8, 0#8, 0#8]).resetIn = false ∧
    (withCmd State.reset [0x02#8, 0#8, 0#8]).cmd = [0x02#8, 0#8, 0#8] := by decide

/-- A header with LEN = 2 and one byte of its payload: a further byte completes it, none does not. -/
theorem witness_OnlyResetEndsTheWait :
    let hd : Bytes := [0x02#8, 0#8, 0#8, 0#8, 2#8, 0#8, 0#8, 0#8]
    let s := withCmd State.reset (hd ++ [0x61#8])
    s.resetIn = false ∧ s.cmd = hd ++ [0x61#8] ∧ hd.length = 8 ∧ matchesRow .update (headerOf hd) ∧
    ([0x61#8] : Bytes).length < payloadLength .update (headerOf hd) ∧
    ([0x61#8] : Bytes).length + ([] : Bytes).length < payloadLength .update (headerOf hd) ∧
    payloadLength .update (headerOf hd) ≤ ([0x61#8] : Bytes).length + ([0x62#8] : Bytes).length ∧
    step s = .fault .truncatedCommand :=
  ⟨rfl, rfl, rfl, by decide, by decide, by decide, by decide, rfl⟩

theorem witness_IllegalHeaderAnswered :
    let hd : Bytes := [0x03#8, 0#8, 0#8, 0#8, 0#8, 0#8, 0#8, 0x80#8]
    let s := withCmd State.reset (hd ++ [1#8])
    s.resetIn = false ∧ hd.length = 8 ∧ s.cmd = hd ++ [1#8] ∧ (∀ o, ¬ matchesRow o (headerOf hd)) ∧
    ∃ t, step s = .next t ∧ t.rsp = s.rsp ++ [3#8, 0#8, 0#8, 0#8] :=
  ⟨by decide, by decide, by decide, no_row _ (by decide), _, rfl, by decide⟩

theorem witness_ResetInputHolds : (hashing .S abc).hostAssertReset.resetIn = true := by decide

theorem witness_RotationByBits : (0 < Variant.B.W ∧ 0 < 1 ∧ 1 < Variant.B.W ∧ 63 < Variant.B.W) ∧
    (1 < Variant.S.W ∧ 31 < Variant.S.W) ∧
    7 ∈ [(rot .S).1, (rot .S).2.1, (rot .S).2.2.1, (rot .S).2.2.2] := by decide

theorem witness_SerializerByteOrder : 7 < Variant.B.WB ∧ 3 < Variant.S.WB ∧ (zeros 8).length = Variant.B.WB ∧
    (zeros 4).length = Variant.S.WB ∧ 1 < ([1#32, 2#32] : List (Word .S)).length ∧ 15 < 16 := by decide

theorem witness_SerializationRoundTrip : (zeros 0).length % Variant.B.WB = 0 ∧ (zeros 128).length % Variant.B.WB = 0 ∧
    (zeros 4).length % Variant.S.WB = 0 := by decide +kernel

theorem witness_ParameterBlockLayoutB : (count 16).length = 16 ∧ (zeros 16).length = 16 := by decide

theorem witness_ParameterBlockLayoutS :
    TreeFields.fits .S ⟨2#8, 3#8, 1#32, 0xffffffffffff#64, 4#8, 32#8⟩ = true ∧ (count 8).length = 8 := by decide

theorem witness_DefaultParameterWords : 64 ≤ Variant.B.KEYMAX ∧ 32 ≤ Variant.S.KEYMAX ∧ (7 : Fin 8) ≠ 0 := by decide

theorem witness_InitialStateIsIvXorP : (1 : Fin 8) ≠ 0 ∧ (7 : Fin 8) ≠ 0 := by decide

/-- The indices of the last diagonal G, and a word it leaves alone. -/
theorem witness_GRewritesFourWords :
    let a : Fin 16 := 3; let b : Fin 16 := 4; let c : Fin 16 := 9; let d : Fin 16 := 14; let k : Fin 16 := 15
    a ≠ b ∧ a ≠ c ∧ a ≠ d ∧ b ≠ c ∧ b ≠ d ∧ c ≠ d ∧ k ≠ a ∧ k ≠ b ∧ k ≠ c ∧ k ≠ d := by decide

theorem witness_PassOrderIsIrrelevant :
    (columnPass sigma[1]).reverse.Perm (columnPass sigma[1]) ∧
    (diagonalPass sigma[9]).reverse.Perm (diagonalPass sigma[9]) :=
  ⟨List.reverse_perm _, List.reverse_perm _⟩

theorem witness_ConstantTables : 0 % 10 = (0 : Fin 10).val ∧ 11 % 10 = (1 : Fin 10).val ∧ 9 % 10 = (9 : Fin 10).val := by
  decide

theorem witness_BufferReadAfterWrite : ¬(3 ≤ 2 ∧ 2 < 3 + abc.length) ∧ ¬(3 ≤ 6 ∧ 6 < 3 + abc.length) := by decide

/-- The bounds of `n`, and registers at the carry and at the wrap. -/
theorem witness_CounterAddition : (0 ≤ Variant.B.BS ∧ 128 ≤ Variant.B.BS ∧ 64 ≤ Variant.S.BS) ∧
    (∃ r : Regs .B, r.t0 = 0xffffffffffffff80#64 ∧ r.t1 = 0#64) ∧
    (∃ r : Regs .S, r.t0 = 0xffffffc0#32 ∧ r.t1 = 0#32) ∧
    (∃ r : Regs .S, r.t0 = 0xffffffc0#32 ∧ r.t1 = 0xffffffff#32) :=
  ⟨by decide, ⟨{ newHasher .B with t0 := 0xffffffffffffff80#64 }, rfl, rfl⟩,
    ⟨{ newHasher .S with t0 := 0xffffffc0#32 }, rfl, rfl⟩,
    ⟨{ newHasher .S with t0 := 0xffffffc0#32, t1 := 0xffffffff#32 }, rfl, rfl⟩⟩

/-- In range: without a key, and with the longest. -/
theorem witness_NewStartsHasher :
    (ParametersInRange .B (64#8).toNat ([] : Bytes).length (zeros 16).length (zeros 16).length ∧ ([] : Bytes).length = 0) ∧
    (ParametersInRange .S (32#8).toNat (count 32).length (zeros 8).length ([] : Bytes).length ∧ 0 < (count 32).length) ∧
    (ParametersInRange .B (1#8).toNat (count 64).length 0 0 ∧ 0 < (count 64).length) := by decide

/-- Out of range by each parameter (R86's corner cases). -/
theorem witness_NewRefuses :
    ¬ ParametersInRange .B (0#8).toNat 0 0 0 ∧ ¬ ParametersInRange .B (65#8).toNat 0 0 0 ∧
    ¬ ParametersInRange .S (33#8).toNat 0 0 0 ∧ ¬ ParametersInRange .S (32#8).toNat (count 33).length 0 0 ∧
    ¬ ParametersInRange .B (64#8).toNat 0 (zeros 15).length 0 ∧ ¬ ParametersInRange .S (32#8).toNat 0 0 (zeros 16).length := by
  decide

theorem witness_UpdateWithinBlock :
    let r := (newHasher .B).absorb (count 125)
    let s := engine .absorbing .B r
    s.phase = .absorbing ∧ s.ctx = ⟨.B, r⟩ ∧ r.buflen.val + abc.length ≤ Variant.B.BS ∧
    ¬(r.buflen.val ≤ 124 ∧ 124 < r.buflen.val + abc.length) ∧ 2 < abc.length := by decide +kernel

theorem witness_UpdateOnFullBuffer :
    let r := (newHasher .S).absorb (count 64)
    let s := engine .absorbing .S r
    s.phase = .absorbing ∧ s.ctx = ⟨.S, r⟩ ∧ r.buflen.val = Variant.S.BS := by decide +kernel

/-- In ABSORBING with data that leaves a byte of the buffer alone and with none; outside ABSORBING. -/
theorem witness_UpdateAbsorbsOrRefuses :
    let r := (newHasher .S).absorb abc
    (engine .absorbing .S r).ctx = ⟨.S, r⟩ ∧ (engine .absorbing .S r).phase = .absorbing ∧ count 5 ≠ [] ∧
    (∀ j, j < (count 5).length → (r.buflen.val + j) % Variant.S.BS ≠ 8) ∧
    (0 < (count 5).length ∧ (count 5).length ≤ 0 + Variant.S.BS) ∧
    (1 < (count 65).length ∧ (count 65).length ≤ 1 + Variant.S.BS) ∧
    (engine .finalized .S r).ctx = ⟨.S, r⟩ ∧ (engine .finalized .S r).phase ≠ .absorbing ∧ State.reset.phase ≠ .absorbing := by
  decide

theorem witness_ChunkingInvariance : (hashing .B abc).phase = .absorbing := by decide

/-- With an empty, a partly filled and a full buffer; outside ABSORBING. -/
theorem witness_FinalizeDeliversOrRefuses :
    (hashing .B []).phase = .absorbing ∧ (hashing .B []).ctx = ⟨.B, newHasher .B⟩ ∧
    (hashing .S abc).phase = .absorbing ∧ (hashing .S abc).ctx = ⟨.S, (newHasher .S).absorb abc⟩ ∧
    ((newHasher .S).absorb (count 64)).buflen.val = Variant.S.BS ∧
    ¬(((newHasher .S).absorb abc).buflen.val ≤ 2 ∧ 2 < Variant.S.BS) ∧
    (((newHasher .S).absorb abc).buflen.val ≤ 63 ∧ 63 < Variant.S.BS) ∧
    (engine .finalized .S ((newHasher .S).absorb abc)).ctx = ⟨.S, (newHasher .S).absorb abc⟩ ∧
    (engine .finalized .S ((newHasher .S).absorb abc)).phase ≠ .absorbing := by decide +kernel

/-- A state in ABSORBING that meets the invariant. -/
theorem hashing_inv : (hashing .S abc).Inv :=
  ⟨by decide, fun _ => ⟨by decide, by decide, by decide, by decide, by decide⟩⟩

theorem witness_DigestHasOutlenBytes : (hashing .S abc).Inv ∧ (hashing .S abc).phase = .absorbing :=
  ⟨hashing_inv, by decide⟩

theorem witness_CompressFromTheChannel :
    let s := withCmd State.reset ([0x04#8, BitVec.ofNat 8 7, 0#8, 0#8, 0#8, 0#8, 0#8, 0#8] ++
      (zeros 32 ++ zeros 64 ++ zeros 4 ++ zeros 4 ++ [1#8]))
    (zeros 32).length = 8 * Variant.S.WB ∧ (zeros 64).length = Variant.S.BS ∧ (zeros 4).length = Variant.S.WB ∧
    s.resetIn = false ∧
    s.cmd = [0x04#8, BitVec.ofNat 8 ((match Variant.S with | .B => 0 | .S => 1) + 2 * true.toNat + 4 * true.toNat), 0#8, 0#8,
      0#8, 0#8, 0#8, 0#8] ++ (zeros 32 ++ zeros 64 ++ zeros 4 ++ zeros 4 ++ [1#8]) := by decide

theorem witness_OneResponsePerCommand : Status.invalidState ≠ .ok := by decide

theorem witness_ErrorsArePrecise :
    let s := withCmd State.reset [0x03#8, 0#8, 0#8, 0#8, 0#8, 0#8, 0#8, 0#8]
    step s = .next { s with cmd := [], rsp := s.rsp ++ responseOf Status.invalidState.code [] } ∧
    Status.invalidState ≠ .ok := ⟨rfl, by decide⟩

/-- One command per row of R13's table, and the held reset. -/
theorem witness_PhaseTransitions :
    (∃ t, step (hashing .S abc).hostAssertReset = .next t) ∧
    (∃ t, step (withCmd State.reset [9#8, 0#8, 0#8, 0#8, 0#8, 0#8, 0#8, 0#8]) = .next t) ∧
    decode [9#8, 0#8, 0#8, 0#8, 0#8, 0#8, 0#8, 0#8] = .illegal .unassignedOp [] ∧
    decode [1#8, 0#8, 64#8, 0#8, 0#8, 0#8, 0#8, 0#8] = .command (.new .B false 64#8 none [] [] []) [] ∧
    decode [1#8, 0#8, 65#8, 0#8, 0#8, 0#8, 0#8, 0#8] = .command (.new .B false 65#8 none [] [] []) [] ∧
    decode [2#8, 0#8, 0#8, 0#8, 0#8, 0#8, 0#8, 0#8] = .command (.update []) [] ∧
    (∃ t, step (withCmd (hashing .S abc) [2#8, 0#8, 0#8, 0#8, 0#8, 0#8, 0#8, 0#8]) = .next t) ∧
    (∃ t, step (withCmd State.reset [2#8, 0#8, 0#8, 0#8, 0#8, 0#8, 0#8, 0#8]) = .next t) ∧
    decode [3#8, 0#8, 0#8, 0#8, 0#8, 0#8, 0#8, 0#8] = .command .finalize [] ∧
    (∃ t, step (withCmd (hashing .S abc) [3#8, 0#8, 0#8, 0#8, 0#8, 0#8, 0#8, 0#8]) = .next t) ∧
    (∃ t, step (withCmd State.reset [3#8, 0#8, 0#8, 0#8, 0#8, 0#8, 0#8, 0#8]) = .next t) ∧
    decode ([4#8, 1#8, 0#8, 0#8, 0#8, 0#8, 0#8, 0#8] ++ zeros 104) =
      .command (.compress .S false false #v[0, 0, 0, 0, 0, 0, 0, 0] (zeros 64) 0#32 0#32) [] :=
  ⟨⟨_, rfl⟩, ⟨_, rfl⟩, by decide, by decide, by decide, by decide, ⟨_, rfl⟩, ⟨_, rfl⟩, by decide, ⟨_, rfl⟩, ⟨_, rfl⟩,
    by decide⟩

theorem witness_OnlyNewWritesParameters :
    (∃ t, exec (.update abc) (hashing .B []) = .next t) ∧ isNew (.update abc) = false ∧
    (∃ t, exec (.compress .S false false (iv .S) (zeros 64) 0#32 0#32) State.reset = .next t) ∧
    isNew (.compress .S false false (iv .S) (zeros 64) 0#32 0#32) = false ∧
    needsHasher (.compress .S false false (iv .S) (zeros 64) 0#32 0#32) = false :=
  ⟨⟨_, rfl⟩, rfl, ⟨_, rfl⟩, rfl, rfl⟩

theorem witness_OnlyNewRevives :
    State.reset.phase ≠ .absorbing ∧ ∀ i ∈ [Instr.update abc, .finalize], isNew i = false := by decide

theorem witness_StepKeepsInvariant :
    let s := withCmd (hashing .S abc) [2#8, 0#8, 0#8, 0#8, 0#8, 0#8, 0#8, 0#8]
    s.Inv ∧ ∃ t, step s = .next t := ⟨hashing_inv, _, rfl⟩

/-- A hasher in progress, and the same with another byte above `buflen` and another epoch. -/
theorem witness_UnspecifiedIsNeverSeen :
    let r := (newHasher .S).absorb abc
    let q : Regs .S := { r.memWrite 63 [0xff#8] with epoch := 9 }
    (hashing .S abc).Inv ∧ (hashing .S abc).Agree (engine .absorbing .S q) ∧ hashing .S abc ≠ engine .absorbing .S q :=
  ⟨hashing_inv, ⟨rfl, rfl, rfl, rfl, fun _ => ⟨.S, _, _, rfl, rfl, rfl, rfl, rfl, rfl, rfl, rfl, by decide⟩⟩, by decide⟩

theorem witness_DigestClosedForm : ParametersInRange .B (64#8).toNat (count 64).length (zeros 16).length ([] : Bytes).length ∧
    ParametersInRange .S (1#8).toNat ([] : Bytes).length ([] : Bytes).length (zeros 8).length := by
  decide

theorem witness_AbsorbedBytesAreCounted : ParametersInRange .B (64#8).toNat (count 1).length 0 0 ∧
    (if (count 1).length = 0 then 0 else Variant.B.BS) + ([abc, []] : List Bytes).flatten.length < 2 ^ (2 * Variant.B.W) := by
  decide

theorem witness_OneshotIsTheSequence : ParametersInRange .S (32#8).toNat (count 32).length 0 0 ∧
    ¬ ParametersInRange .S (33#8).toNat (count 32).length 0 0 := by
  decide

end Sys2Proof.Tests
end

section
/-! SUPPORT. Proofs of the statements about the encoding, `WorkedEncodings` and `CompressFromTheChannel`, with the
laws they need: the decoder on a legal header followed by its payload, the payloads of NEW and COMPRESS taken
apart, and the step on a decoded command. -/

namespace Sys2Proof

/-! ## A header with its payload -/

/-- The header of eight bytes is their little-endian value (R45). -/
theorem headerOf_toNat {hd : Bytes} (h8 : hd.length = 8) : (headerOf hd).toNat = leNat hd := by
  simpa using headerOf_append hd [] h8

/-- The header value reads the first eight bytes only (R45). -/
theorem headerOf_append_eq {hd : Bytes} (rest : Bytes) (h8 : hd.length = 8) : headerOf (hd ++ rest) = headerOf hd :=
  BitVec.eq_of_toNat_eq ((headerOf_append hd rest h8).trans (headerOf_toNat h8).symm)

/-- A legal header and as many bytes as it names are a command, whatever follows them (R58). -/
theorem decode_header_payload {hd p : Bytes} {o : Op} (rest : Bytes) (h8 : hd.length = 8)
    (ho : opOf (headerOf hd) = some o) (hr : reservedClear o (headerOf hd) = true)
    (hp : p.length = payloadLength o (headerOf hd)) :
    decode (hd ++ (p ++ rest)) = .command (assemble o (headerOf hd) p) rest := by
  have hH := headerOf_append_eq (p ++ rest) h8
  have hlegal := decode_legal (s := hd ++ (p ++ rest)) (o := o) (by simp [h8]) (by rw [hH, ho]) (by rw [hH, hr])
    (by rw [hH]; simp only [List.length_append]; omega)
  rwa [hH, List.drop_left' h8, List.take_left' hp, List.drop_left' hp] at hlegal

/-! ## The payload of NEW -/

/-- The command of a NEW header whose payload is a tree descriptor (or nothing), a key, a salt and a
personalization of the lengths the header names (R53). -/
theorem assembleNew_append {H : BitVec 64} {v : Variant} {ln tp : Bool} {dlen : Byte} {td key salt pers : Bytes}
    (hv : variantField H = v) (hln : bit9 H = ln) (htp : bit10 H = tp) (hdlen : dlenField H = dlen)
    (htd : td.length = if tp then v.TDBYTES else 0) (hkey : key.length = klenField H)
    (hsalt : salt.length = slenField H) (hpers : pers.length = plenField H) :
    assembleNew H (td ++ key ++ salt ++ pers) =
      .new v ln dlen (if tp then some (parseTree v td) else none) key salt pers := by
  simp only [assembleNew, hv, hln, htp, hdlen, ← htd, ← hkey, ← hsalt, ← hpers]
  simp [List.append_assoc, ← List.drop_drop]

/-- The header of NEW.S with a 32-byte digest and a 32-byte key, as R62 gives it. -/
def newKeyedHeader : Bytes := [0x01#8, 0x01#8, 0x20#8, 0x20#8, 0x00#8, 0x00#8, 0x00#8, 0x00#8]

/-- That header and any 32-byte key are NEW.S with this key (R62). -/
theorem decode_newKeyedHeader {key : Bytes} (hk : key.length = 32) :
    decode (newKeyedHeader ++ key) = .command (.new .S false 32#8 none key [] []) [] := by
  have hdec := decode_header_payload (hd := newKeyedHeader) (o := .new) (p := key) [] rfl (by decide) (by decide)
    (hk.trans (by decide))
  have hasm := assembleNew_append (H := headerOf newKeyedHeader) (v := .S) (ln := false) (tp := false) (dlen := 32#8)
    (td := []) (salt := []) (pers := []) (by decide) (by decide) (by decide) (by decide) rfl (hk.trans (by decide))
    (by decide) (by decide)
  simp only [List.nil_append, List.append_nil] at hdec hasm
  rw [hdec, assemble, hasm]
  rfl

/-! ## COMPRESS -/

/-- The header of COMPRESS with the fields V, F and LN (R50). -/
def compressHeader (v : Variant) (f ln : Bool) : Bytes :=
  [0x04#8, flagByte (variantBit v) f ln, 0#8, 0#8, 0#8, 0#8, 0#8, 0#8]

theorem encodeHeader_compress (v : Variant) (f ln : Bool) (h : Vector (Word v) 8) (block : Bytes) (t0 t1 : Word v) :
    encodeHeader (.compress v f ln h block t0 t1) = compressHeader v f ln := rfl

section
variable (v : Variant) (f ln : Bool)

/-- The header of COMPRESS as a number: the opcode, and V, F and LN from bit 8 up. -/
theorem compressHeader_toNat : (headerOf (compressHeader v f ln)).toNat =
    4 + 2 ^ 8 * ((variantBit v).toNat + 2 * f.toNat + 4 * ln.toNat) := by
  rw [headerOf_toNat rfl]
  simp [compressHeader, leNat, flagByte_toNat]

theorem opOf_compressHeader : opOf (headerOf (compressHeader v f ln)) = some .compress := by
  simp only [opOf_eq_some, compressHeader_toNat]
  omega

theorem reservedClear_compressHeader : reservedClear .compress (headerOf (compressHeader v f ln)) = true := by
  have hv := Bool.toNat_lt (variantBit v)
  have hf := Bool.toNat_lt f
  have hln := Bool.toNat_lt ln
  rw [reservedClear_iff, compressHeader_toNat]
  omega

@[simp] theorem variantField_compressHeader : variantField (headerOf (compressHeader v f ln)) = v := by
  have hv := Bool.toNat_lt (variantBit v)
  have hbit : (headerOf (compressHeader v f ln)).toNat / 2 ^ 8 % 2 = (variantBit v).toNat := by
    rw [compressHeader_toNat]; omega
  rw [variantField_eq, hbit]
  cases v <;> rfl

@[simp] theorem bit9_compressHeader : bit9 (headerOf (compressHeader v f ln)) = f := by
  have hv := Bool.toNat_lt (variantBit v)
  have hf := Bool.toNat_lt f
  rw [bit9_eq]
  exact bit_of_value _ _ _ (by rw [compressHeader_toNat]; omega)

@[simp] theorem bit10_compressHeader : bit10 (headerOf (compressHeader v f ln)) = ln := by
  have hv := Bool.toNat_lt (variantBit v)
  have hf := Bool.toNat_lt f
  have hln := Bool.toNat_lt ln
  rw [bit10_eq]
  exact bit_of_value _ _ _ (by rw [compressHeader_toNat]; omega)

end

/-- The COMPRESS that a payload of the right length stands for (R54). -/
def compressOf (v : Variant) (f ln : Bool) (p : Bytes) : Instr :=
  .compress v f ln (loadWords v 8 (p.take (8 * v.WB))) ((p.drop (8 * v.WB)).take v.BS)
    (bytesToWord v ((p.drop (8 * v.WB + v.BS)).take v.WB))
    (bytesToWord v ((p.drop (8 * v.WB + v.BS + v.WB)).take v.WB))

theorem assembleCompress_eq {H : BitVec 64} {v : Variant} {f ln : Bool} (hv : variantField H = v) (hf : bit9 H = f)
    (hln : bit10 H = ln) (p : Bytes) : assembleCompress H p = compressOf v f ln p := by
  subst hv hf hln
  rfl

/-- Every payload of the right length is a valid operand of COMPRESS (R54). -/
theorem decode_compress (v : Variant) (f ln : Bool) {p : Bytes} (rest : Bytes)
    (hp : p.length = 8 * v.WB + v.BS + 2 * v.WB) :
    decode (compressHeader v f ln ++ (p ++ rest)) = .command (compressOf v f ln p) rest := by
  rw [decode_header_payload rest rfl (opOf_compressHeader v f ln) (reservedClear_compressHeader v f ln)
    (by simpa only [payloadLength, variantField_compressHeader] using hp)]
  exact congrArg (Decoded.command · rest) (assembleCompress_eq (by simp) (by simp) (by simp) p)

/-- The operands of COMPRESS, one after the other in its payload (R54). -/
theorem compressOf_append {v : Variant} (f ln : Bool) {a block c0 c1 : Bytes} (ha : a.length = 8 * v.WB)
    (hb : block.length = v.BS) (h0 : c0.length = v.WB) (h1 : c1.length = v.WB) :
    compressOf v f ln (a ++ block ++ c0 ++ c1) =
      .compress v f ln (loadWords v 8 a) block (bytesToWord v c0) (bytesToWord v c1) := by
  simp only [compressOf, ← ha, ← hb, List.append_assoc, ← List.drop_drop, List.take_left, List.drop_left]
  rw [List.take_left' h0, List.drop_left' h0, List.take_of_length_le h1.le]

namespace Machine

/-! ## The step -/

/-- A whole command on the channel is executed on the state with its bytes removed (R31, R40). -/
theorem step_of_decode {s : State} {i : Instr} {rest : Bytes} (hr : s.resetIn = false)
    (hd : decode s.cmd = .command i rest) : step s = exec i { s with cmd := rest } := by
  have hne : s.cmd ≠ [] := fun he => by simp [he, decode, arrived] at hd
  simp [step, fetch, hr, hne, hd]

/-- The last-node flag counts only in a final compression (R108). -/
theorem compress_lastNode (v : Variant) (h : Vector (Word v) 8) (block : Bytes) (t0 t1 : Word v) (f ln : Bool) :
    compress v h block t0 t1 f (f && ln) = compress v h block t0 t1 f ln := by
  cases f <;> rfl

/-- COMPRESS answers OK with the serialized state, and changes nothing else (R127). -/
theorem exec_compress (v : Variant) (f ln : Bool) (h : Vector (Word v) 8) (block : Bytes) (t0 t1 : Word v) (s : State) :
    exec (.compress v f ln h block t0 t1) s =
      .next { s with rsp := s.rsp ++ ([0#8, BitVec.ofNat 8 (8 * v.WB), 0#8, 0#8]
        ++ wordsToBytes (compress v h block t0 t1 f ln).toList) } := by
  have hle := stateBytes_le (compress v h block t0 t1 f ln)
  have hrsp := responseBytes_eq .ok (wordsToBytes (compress v h block t0 t1 f ln).toList) (by omega)
  rw [responseOf, stateBytes_length] at hrsp
  simp only [exec, execCompress, State.respond, hrsp, Status.code]

end Machine

open Machine

/-! ## The statements -/

/-- Settles O38: the bytes decode to COMPRESS with the operands they encode, and COMPRESS only answers. -/
theorem compressFromTheChannel : Obligations.CompressFromTheChannel := by
  intro v f ln a block c0 c1 rest s ha hb h0 h1 hr hcmd
  have hbytes : s.cmd = compressHeader v f ln ++ ((a ++ block ++ c0 ++ c1) ++ rest) := by
    rw [hcmd]
    cases v <;> rfl
  have hdec : decode s.cmd =
      .command (.compress v f ln (loadWords v 8 a) block (bytesToWord v c0) (bytesToWord v c1)) rest := by
    rw [hbytes, decode_compress v f ln rest (by simp only [List.length_append]; omega),
      compressOf_append f ln ha hb h0 h1]
  rw [step_of_decode hr hdec, exec_compress, compress_lastNode]

/-- Settles O1: the closed encodings are evaluated; those with a key, a payload or a digest follow from the laws of
the decoder and of the response. -/
theorem workedEncodings : Obligations.WorkedEncodings := by
  refine ⟨by decide, fun key hk => ⟨?_, decode_newKeyedHeader hk⟩, by decide, by decide, ?_, ?_, ?_, by decide⟩
  · simp [encode, encodeHeader, encodePayload, hk, flagByte, variantBit]
  · intro h block t0 t1
    rw [encode, List.take_left' (encodeHeader_length _), encodeHeader_compress]
    rfl
  · intro payload hp
    have hdec := decode_compress .S true false [] hp
    rw [List.append_nil] at hdec
    exact ⟨_, _, _, _, hdec⟩
  · intro digest hd
    rw [responseBytes_eq .ok digest (by omega), responseOf, hd]
    rfl

end Sys2Proof
end

section
/-! SUPPORT. Proofs of the statements about the word operations and the word serializer, `RotationByBits`,
`WordArithmetic`, `SerializerByteOrder` and `SerializationRoundTrip`, with the laws they need: a rotation and an
exclusive or bit by bit, one byte of a serialized word, and one word of a serialized or loaded sequence. -/

namespace Sys2Proof

variable {v : Variant}

theorem wordSize_pos (v : Variant) : 0 < v.W := by cases v <;> decide

theorem wordBytes_pos (v : Variant) : 0 < v.WB := by cases v <;> decide

/-! ## Rotation (R71) -/

/-- Bit `i` of a rotation, for any amount (R71). -/
theorem getLsbD_rotr (x : Word v) (n : Nat) {i : Nat} (hi : i < v.W) :
    (rotr x n).getLsbD i = x.getLsbD ((i + n) % v.W) := by
  have hn : n % v.W < v.W := Nat.mod_lt n (wordSize_pos v)
  rw [rotr, BitVec.getLsbD_rotateRight, Nat.add_mod, Nat.mod_eq_of_lt hi]
  by_cases h : i < v.W - n % v.W
  · rw [Nat.mod_eq_of_lt (by omega : i + n % v.W < v.W)]
    simp [h, Nat.add_comm]
  · have hwrap : (i + n % v.W) % v.W = i - (v.W - n % v.W) := by
      rw [Nat.mod_eq_sub_mod (by omega), Nat.mod_eq_of_lt (by omega)]
      omega
    simp [h, hi, hwrap]

/-- Rotation as the two shifts of R71. -/
theorem rotr_toNat (x : Word v) {n : Nat} (hn : n < v.W) :
    (rotr x n).toNat = (x.toNat >>> n ||| x.toNat <<< (v.W - n)) % 2 ^ v.W := by
  have hshift : x.toNat >>> n < 2 ^ v.W := lt_of_le_of_lt (Nat.shiftRight_le _ _) x.isLt
  rw [rotr, BitVec.toNat_rotateRight, Nat.mod_eq_of_lt hn, Nat.or_mod_two_pow, Nat.mod_eq_of_lt hshift]

@[simp] theorem rotr_zero (x : Word v) : rotr x 0 = x := by
  refine BitVec.eq_of_getLsbD_eq fun i hi => ?_
  rw [getLsbD_rotr x 0 hi, Nat.add_zero, Nat.mod_eq_of_lt hi]

/-- An amount of `W` or more is taken modulo `W`, as R71 recommends. -/
theorem rotr_mod (x : Word v) (n : Nat) : rotr x (n % v.W) = rotr x n :=
  BitVec.rotateRight_mod_eq_rotateRight

/-- A word whose bits are all equal is fixed by every rotation (R71). -/
theorem rotr_of_const_bits {x : Word v} {b : Bool} (h : ∀ i, i < v.W → x.getLsbD i = b) (n : Nat) : rotr x n = x := by
  refine BitVec.eq_of_getLsbD_eq fun i hi => ?_
  rw [getLsbD_rotr x n hi, h _ (Nat.mod_lt _ (wordSize_pos v)), h i hi]

/-- A rotation right by `W - n` is a rotation left by `n` (R71). -/
theorem rotr_sub (x : Word v) {n : Nat} (h0 : 0 < n) (hn : n < v.W) : rotr x (v.W - n) = x.rotateLeft n := by
  have hback : v.W - (v.W - n) = n := by omega
  rw [rotr, BitVec.rotateRight_def, BitVec.rotateLeft_def, Nat.mod_eq_of_lt (by omega : v.W - n < v.W),
    Nat.mod_eq_of_lt hn, hback, BitVec.or_comm]

/-! ## Addition, exclusive or, inversion (R72 to R74) -/

theorem wadd_toNat (a b : Word v) : (wadd a b).toNat = (a.toNat + b.toNat) % 2 ^ v.W := BitVec.toNat_add a b

theorem wadd_comm (a b : Word v) : wadd a b = wadd b a := BitVec.add_comm a b

theorem wadd_assoc (a b c : Word v) : wadd (wadd a b) c = wadd a (wadd b c) := BitVec.add_assoc a b c

@[simp] theorem wadd_zero (a : Word v) : wadd a (0#v.W) = a := BitVec.add_zero a

/-- Two words whose sum is `2^W` add to zero: the carry is discarded (R72). -/
theorem wadd_eq_zero {a b : Word v} (h : a.toNat + b.toNat = 2 ^ v.W) : wadd a b = 0#v.W := by
  apply BitVec.eq_of_toNat_eq
  rw [wadd_toNat, h, Nat.mod_self, BitVec.toNat_zero]

theorem getLsbD_wxor (a b : Word v) (i : Nat) : (wxor a b).getLsbD i = (a.getLsbD i ^^ b.getLsbD i) :=
  BitVec.getLsbD_xor

@[simp] theorem wxor_self (a : Word v) : wxor a a = 0#v.W := BitVec.xor_self

@[simp] theorem wxor_zero (a : Word v) : wxor a (0#v.W) = a := BitVec.xor_zero

theorem wnot_toNat (a : Word v) : (wnot a).toNat = 2 ^ v.W - 1 - a.toNat := BitVec.toNat_not

theorem wnot_eq_wxor (a : Word v) : wnot a = wxor a (BitVec.allOnes v.W) := BitVec.xor_allOnes.symm

@[simp] theorem wnot_wnot (a : Word v) : wnot (wnot a) = a := BitVec.not_not

/-! ## One word (R75, R76) -/

/-- Byte `k` of a serialized word is its bits `8k+7..8k` (R75). -/
theorem wordToBytes_getElem? (x : Word v) {k : Nat} (hk : k < v.WB) :
    (wordToBytes x)[k]? = some (x.extractLsb' (8 * k) 8) := by
  have hbyte : BitVec.ofNat 8 (x.toNat / 256 ^ k) = x.extractLsb' (8 * k) 8 := by
    apply BitVec.eq_of_toNat_eq
    rw [BitVec.toNat_ofNat, BitVec.extractLsb'_toNat, Nat.shiftRight_eq_div_pow, Nat.pow_mul]
  rw [wordToBytes, leBytes_getElem? _ _ _ hk, hbyte]

/-- `le(s)` is the sum of `s[k] << 8k` (R7). -/
theorem leNat_eq_sum (s : Bytes) :
    leNat s = ((List.range s.length).map fun k => (s.getD k 0#8).toNat <<< (8 * k)).sum := by
  induction s with
  | nil => rfl
  | cons b s ih =>
    have hshift (k : Nat) : (s.getD k 0#8).toNat <<< (8 * (k + 1)) = 256 * (s.getD k 0#8).toNat <<< (8 * k) := by
      rw [Nat.shiftLeft_eq, Nat.shiftLeft_eq, Nat.mul_succ, Nat.pow_add]
      ring
    rw [leNat, ih, List.length_cons, List.range_succ_eq_map]
    simp only [List.map_cons, List.map_map, List.sum_cons, Function.comp_def, List.getD_cons_succ, Nat.succ_eq_add_one,
      hshift, List.sum_map_mul_left]
    simp

theorem bytesToWord_toNat {s : Bytes} (h : s.length = v.WB) : (bytesToWord v s).toNat = leNat s := by
  rw [bytesToWord, BitVec.toNat_ofNat, wordBits, ← h, Nat.mod_eq_of_lt (leNat_lt s)]

/-! ## Word sequences (R77 to R79) -/

/-- The bytes from word `i` on are the serialization of the words from `i` on (R77). -/
theorem wordsToBytes_drop (ws : List (Word v)) (i : Nat) :
    (wordsToBytes ws).drop (v.WB * i) = wordsToBytes (ws.drop i) := by
  induction i generalizing ws with
  | zero => rfl
  | succ i ih =>
    cases ws with
    | nil => simp
    | cons x ws =>
      rw [wordsToBytes_cons, Nat.mul_succ, Nat.add_comm, ← List.drop_drop, List.drop_left' (wordToBytes_length x), ih,
        List.drop_succ_cons]

/-- Byte `k` of word `i` stands at `WB*i + k` (R77). -/
theorem wordsToBytes_getElem? (ws : List (Word v)) {i k : Nat} (hi : i < ws.length) (hk : k < v.WB) :
    (wordsToBytes ws)[v.WB * i + k]? = (wordToBytes ws[i])[k]? := by
  rw [← List.getElem?_drop, wordsToBytes_drop, List.drop_eq_getElem_cons hi, wordsToBytes_cons,
    List.getElem?_append_left (by rwa [wordToBytes_length])]

/-- Word `i` is loaded from the bytes from `WB*i` on (R78). -/
theorem bytesToWords_getElem? (n i : Nat) (s : Bytes) (hi : i < n) :
    (bytesToWords v n s)[i]? = some (bytesToWord v ((s.drop (v.WB * i)).take v.WB)) := by
  induction n generalizing i s with
  | zero => omega
  | succ n ih =>
    cases i with
    | zero => rfl
    | succ i =>
      rw [bytesToWords, List.getElem?_cons_succ, ih i _ (by omega), List.drop_drop, Nat.mul_succ, Nat.add_comm]

theorem bytesToWords_wordsToBytes (ws : List (Word v)) : bytesToWords v ws.length (wordsToBytes ws) = ws := by
  induction ws with
  | nil => rfl
  | cons x ws ih =>
    rw [List.length_cons, bytesToWords, wordsToBytes_cons, List.take_left' (wordToBytes_length x),
      List.drop_left' (wordToBytes_length x), bytesToWord_wordToBytes, ih]

theorem wordsToBytes_bytesToWords (n : Nat) (s : Bytes) (h : s.length = n * v.WB) :
    wordsToBytes (bytesToWords v n s) = s := by
  induction n generalizing s with
  | zero =>
    rw [Nat.zero_mul] at h
    rw [List.eq_nil_of_length_eq_zero h]
    rfl
  | succ n ih =>
    rw [Nat.succ_mul] at h
    rw [bytesToWords, wordsToBytes_cons, wordToBytes_bytesToWord _ (by rw [List.length_take]; omega),
      ih _ (by rw [List.length_drop]; omega), List.take_append_drop]

/-! ## The statements -/

/-- Settles O12: the words that every rotation fixes follow from the bit law, the other clauses are the laws of `rotr`;
the examples and the amounts of ROT are evaluated. -/
theorem rotationByBits : Obligations.RotationByBits := by
  refine ⟨fun v x n i _ hi => getLsbD_rotr x n hi, fun v x n _ hn => rotr_toNat x hn, fun v x => rotr_zero x,
    fun v x n => (rotr_mod x n).symm, fun v n _ => ⟨?_, ?_⟩, fun x => rotr_sub x (n := 1) (by decide) (by decide),
    by decide, by decide, rfl, rfl, ?_⟩
  · exact rotr_of_const_bits (b := false) (fun i _ => BitVec.getLsbD_zero) n
  · exact rotr_of_const_bits (b := true) (fun i hi => by simp [hi]) n
  · intro v
    cases v <;> decide

/-- Settles O13: the laws are those of the operations above, the corner cases of the carry follow from the value of
a sum, the examples are evaluated. -/
theorem wordArithmetic : Obligations.WordArithmetic := by
  refine ⟨fun v => wadd_toNat, fun v a b c => ⟨wadd_comm a b, wadd_assoc a b c, wadd_zero a⟩, ?_, ?_,
    fun v a => ⟨wxor_self a, wxor_zero a⟩, fun v a => ⟨wnot_toNat a, wnot_eq_wxor a, wnot_wnot a, ?_⟩,
    by decide, by decide, by decide, by decide⟩
  · intro v
    refine ⟨wadd_eq_zero ?_, ?_, wadd_eq_zero ?_⟩
    · cases v <;> decide
    · rw [wadd_toNat]
      cases v <;> decide
    · cases v <;> decide
  · intro v a b i
    rw [getLsbD_wxor, bne_iff_ne]
  · rw [wnot_toNat, BitVec.toNat_zero, Nat.sub_zero]

/-- Settles O14: the positions are the laws of one word and of a sequence, the examples are evaluated. -/
theorem serializerByteOrder : Obligations.SerializerByteOrder := by
  refine ⟨fun v x => ⟨wordToBytes_length x, fun k hk => wordToBytes_getElem? x hk⟩, ?_,
    fun v ws => ⟨wordsToBytes_length ws, fun i k hi hk => wordsToBytes_getElem? ws hi hk⟩, bytesToWords_length,
    fun v n i s hi => bytesToWords_getElem? n i s hi, by decide, by decide, by decide, by decide⟩
  intro v s hs
  rw [bytesToWord_toNat hs, leNat_eq_sum, hs]

/-- Settles O15: each direction by induction on the number of words, from the round trip of one word. -/
theorem serializationRoundTrip : Obligations.SerializationRoundTrip :=
  ⟨fun _ ws => bytesToWords_wordsToBytes ws, fun _ s hs =>
    wordsToBytes_bytesToWords _ s (Nat.div_mul_cancel (Nat.dvd_of_mod_eq_zero hs)).symm⟩

end Sys2Proof
end

section
/-! SUPPORT. Proofs of the statements about the parameter block and its validation, `ParameterBlockLayoutB`,
`ParameterBlockLayoutS`, `AbsentSaltIsZeros`, `DefaultParameterWords` and `InvalidParameterExactly`, with the laws they
need: the block as the sequence of its fields, one word of a loaded register file, and the status a command answers. -/

namespace Sys2Proof.Machine

variable {v : Variant}

/-! ## An absent salt or personalization (R87) -/

@[simp] theorem orZeros_nil (n : Nat) : orZeros n [] = zeros n := rfl

/-- A salt of the full width stands for itself. -/
theorem orZeros_of_length {n : Nat} {s : Bytes} (h : s.length = n) : orZeros n s = s := by
  unfold orZeros
  split
  · rename_i h0
    rw [← h, List.length_eq_zero_iff.mp h0]
    rfl
  · rfl

/-- An absent salt and one of zero bytes are the same. -/
theorem orZeros_zeros (n : Nat) : orZeros n (zeros n) = zeros n := orZeros_of_length (zeros_length n)

/-! ## The fields of the parameter block (R88, R89) -/

/-- The fields of the block in their order: the four leading bytes, leaf_length, node_offset, node_depth with
inner_length, the reserved bytes, salt, personalization. -/
def paramFields (v : Variant) (dlen : Byte) (klen : Nat) (tree : TreeFields) (salt pers : Bytes) : List Bytes :=
  [[dlen, BitVec.ofNat 8 klen, tree.fanout, tree.depth], leBytes 4 tree.leafLength.toNat,
    leBytes v.NOBYTES tree.nodeOffset.toNat, [tree.nodeDepth, tree.innerLength], zeros (reservedBytes v),
    orZeros v.SALTBYTES salt, orZeros v.PERSBYTES pers]

/-- The widths of the fields. -/
def fieldWidths (v : Variant) : List Nat := [4, 4, v.NOBYTES, 2, reservedBytes v, v.SALTBYTES, v.PERSBYTES]

theorem fieldWidths_sum (v : Variant) : (fieldWidths v).sum = v.PBBYTES := by cases v <;> rfl

/-- Field `i` of a concatenation stands after the fields before it. -/
theorem flatten_field (L : List Bytes) (i : Nat) (hi : i < L.length) :
    (L.flatten.drop ((L.map List.length).take i).sum).take L[i].length = L[i] := by
  rw [← List.drop_take_succ_flatten_eq_getElem L i hi, List.drop_take, List.sum_take_succ _ i (by simpa using hi)]
  simp

section
variable (dlen : Byte) (klen : Nat) (tree : TreeFields) {salt pers : Bytes}

theorem paramBlock_eq_flatten (salt pers : Bytes) :
    paramBlock v dlen klen tree salt pers = (paramFields v dlen klen tree salt pers).flatten := by
  simp [paramBlock, treeBytes, paramFields]

variable (hs : salt.length = v.SALTBYTES) (hp : pers.length = v.PERSBYTES)
include hs hp

theorem paramFields_lengths : (paramFields v dlen klen tree salt pers).map List.length = fieldWidths v := by
  simp [paramFields, fieldWidths, orZeros_of_length, hs, hp]

theorem paramBlock_length : (paramBlock v dlen klen tree salt pers).length = v.PBBYTES := by
  rw [paramBlock_eq_flatten, List.length_flatten, paramFields_lengths dlen klen tree hs hp, fieldWidths_sum]

/-- Field `i` stands at the sum of the widths before it (R88, R89). -/
theorem paramBlock_field (i : Fin 7) :
    ((paramBlock v dlen klen tree salt pers).drop ((fieldWidths v).take i).sum).take ((fieldWidths v)[i.val]'i.isLt) =
      (paramFields v dlen klen tree salt pers)[i.val]'i.isLt := by
  simp only [← paramFields_lengths dlen klen tree hs hp, List.getElem_map, paramBlock_eq_flatten]
  exact flatten_field (paramFields v dlen klen tree salt pers) i i.isLt

end

/-! ## NEW with an absent salt or personalization (R87) -/

/-- NEW reads the salt and the personalization only through their validation and the parameter block (R123). -/
theorem exec_new_congr {dlen : Byte} {tree : Option TreeFields} {key salt salt' pers pers' : Bytes}
    (hrange : ParametersInRange v dlen.toNat key.length salt.length pers.length ↔
      ParametersInRange v dlen.toNat key.length salt'.length pers'.length)
    (hblock : paramBlock v dlen key.length (tree.getD defaultTree) salt pers =
      paramBlock v dlen key.length (tree.getD defaultTree) salt' pers') (ln : Bool) (s : State) :
    exec (.new v ln dlen tree key salt pers) s = exec (.new v ln dlen tree key salt' pers') s := by
  simp only [exec]
  by_cases h : ParametersInRange v dlen.toNat key.length salt.length pers.length
  · rw [execNew_valid h, execNew_valid (hrange.mp h), newRegs, newRegs, hblock]
  · rw [execNew_invalid h, execNew_invalid (mt hrange.mpr h)]

theorem paramBlock_absent_salt (dlen : Byte) (klen : Nat) (tree : TreeFields) (pers : Bytes) :
    paramBlock v dlen klen tree [] pers = paramBlock v dlen klen tree (zeros v.SALTBYTES) pers := by
  simp only [paramBlock, orZeros_nil, orZeros_zeros]

theorem paramBlock_absent_pers (dlen : Byte) (klen : Nat) (tree : TreeFields) (salt : Bytes) :
    paramBlock v dlen klen tree salt [] = paramBlock v dlen klen tree salt (zeros v.PERSBYTES) := by
  simp only [paramBlock, orZeros_nil, orZeros_zeros]

/-! ## The parameter words (R90) -/

/-- Word `i` of a loaded register file (R78). -/
theorem loadWords_getElem (n i : Nat) (s : Bytes) (hi : i < n) :
    (loadWords v n s)[i] = bytesToWord v ((s.drop (v.WB * i)).take v.WB) := by
  have hword := bytesToWords_getElem? (v := v) n i s hi
  rwa [List.getElem?_eq_getElem (by rwa [bytesToWords_length]), Option.some.injEq] at hword

/-- The block of default tree fields, no salt and no personalization: four bytes, then zeros (R88, R89). -/
theorem paramBlock_default (v : Variant) (dlen : Byte) (klen : Nat) :
    paramBlock v dlen klen defaultTree [] [] = [dlen, BitVec.ofNat 8 klen, 1#8, 1#8] ++ zeros (v.PBBYTES - 4) := by
  cases v <;> rfl

section
variable (v : Variant) (dlen : Byte)

/-- The word a block of default tree fields begins with (R90). -/
theorem paramWords_default_zero {klen : Nat} (hk : klen ≤ v.KEYMAX) :
    ((paramWords v (paramBlock v dlen klen defaultTree [] []))[0]).toNat = 0x01010000 + 256 * klen + dlen.toNat := by
  have hword : (paramBlock v dlen klen defaultTree [] []).take v.WB =
      [dlen, BitVec.ofNat 8 klen, 1#8, 1#8] ++ zeros (v.WB - 4) := by
    cases v <;> rfl
  have hbyte : klen < 256 := lt_of_le_of_lt hk (by cases v <;> decide)
  rw [paramWords, loadWords_getElem, Nat.mul_zero, List.drop_zero, bytesToWord_toNat, hword, leNat_append, leNat_zeros]
  · simp only [leNat, BitVec.toNat_ofNat]
    omega
  · rw [hword]
    cases v <;> rfl

/-- Every later word of a block of default tree fields is zero (R90). -/
theorem paramWords_default_later (klen : Nat) {i : Nat} (h0 : i ≠ 0) (hi : i < 8) :
    (paramWords v (paramBlock v dlen klen defaultTree [] []))[i] = 0#v.W := by
  have hword : ((paramBlock v dlen klen defaultTree [] []).drop (v.WB * i)).take v.WB = zeros v.WB := by
    have h4 : 4 ≤ v.WB * i := by cases v <;> simp only [Variant.WB] <;> omega
    have hfit : v.WB * i + v.WB ≤ v.PBBYTES := by cases v <;> simp only [Variant.WB, Variant.PBBYTES] <;> omega
    rw [paramBlock_default, List.drop_append, List.drop_eq_nil_of_le h4, List.nil_append, zeros, List.drop_replicate,
      List.take_replicate, zeros]
    congr 1
    simp only [List.length_cons, List.length_nil]
    omega
  rw [paramWords, loadWords_getElem, hword, bytesToWord, leNat_zeros]

end

/-! ## The refusal of a NEW (R86, R141) -/

/-- A parameter is out of range exactly when one of the conditions of R86 fails. -/
theorem not_inRange_iff (v : Variant) (dlen klen slen plen : Nat) :
    ¬ ParametersInRange v dlen klen slen plen ↔
      dlen = 0 ∨ v.OUTMAX < dlen ∨ v.KEYMAX < klen ∨ (slen ≠ 0 ∧ slen ≠ v.SALTBYTES) ∨
        (plen ≠ 0 ∧ plen ≠ v.PERSBYTES) := by
  unfold ParametersInRange
  omega

/-- A response begins with its STATUS byte, whatever its payload (R55). -/
theorem responseBytes_head (st : Status) (p : Bytes) : (responseBytes st p).head? = some st.code := by
  have hcode : BitVec.ofNat 8 (st.code.toNat + 256 * p.length) = st.code := by
    apply BitVec.eq_of_toNat_eq
    have := st.code.isLt
    rw [BitVec.toNat_ofNat]
    omega
  simp [responseBytes, leBytes, hcode]

theorem status_code_injective : Function.Injective Status.code := by
  intro st st'
  cases st <;> cases st' <;> decide

/-- The command is answered with this STATUS (R55, R140). -/
def Answers (i : Instr) (s : State) (st : Status) : Prop :=
  ∃ t p, exec i s = .next t ∧ t.rsp = s.rsp ++ responseBytes st p

/-- A command is answered with one STATUS. -/
theorem answers_unique {i : Instr} {s : State} {st st' : Status} (h : Answers i s st) (h' : Answers i s st') :
    st = st' := by
  obtain ⟨t, p, hexec, hrsp⟩ := h
  obtain ⟨t', p', hexec', hrsp'⟩ := h'
  obtain rfl : t = t' := by simpa [hexec] using hexec'
  have hbytes : responseBytes st p = responseBytes st' p' := List.append_cancel_left (hrsp.symm.trans hrsp')
  apply status_code_injective
  simpa only [responseBytes_head, Option.some.injEq] using congrArg List.head? hbytes

/-- InvalidParameter is answered to a NEW with a parameter out of range, and to no other command (R141). -/
theorem answers_invalidParameter {i : Instr} {s : State} (h : Answers i s .invalidParameter) :
    ∃ v ln dlen tree key salt pers, i = .new v ln dlen tree key salt pers ∧
      ¬ ParametersInRange v dlen.toNat key.length salt.length pers.length := by
  obtain ⟨v, ln, dlen, tree, key, salt, pers, _, _, hexec⟩ | ⟨v, ln, dlen, tree, key, salt, pers, hi, hout, _⟩ |
    ⟨data, _, _, hexec⟩ | ⟨_, _, hexec⟩ | ⟨_, _, hexec⟩ |
    ⟨v, f, ln, h0, block, t0, t1, _, hexec⟩ := exec_cases i s
  · exact absurd (answers_unique h ⟨_, _, hexec, rfl⟩) (by decide)
  · exact ⟨v, ln, dlen, tree, key, salt, pers, hi, hout⟩
  · exact absurd (answers_unique h ⟨_, _, hexec, rfl⟩) (by decide)
  · exact absurd (answers_unique h ⟨_, _, hexec, rfl⟩) (by decide)
  · exact absurd (answers_unique h ⟨_, _, hexec, rfl⟩) (by decide)
  · exact absurd (answers_unique h ⟨_, _, hexec, rfl⟩) (by decide)

end Sys2Proof.Machine

namespace Sys2Proof

open Machine

/-! ## The statements -/

/-- Settles O16: the field law at the widths of variant B; the example is evaluated. -/
theorem parameterBlockLayoutB : Obligations.ParameterBlockLayoutB := by
  intro dlen klen tree salt pers hs hp P
  have field := paramBlock_field (v := .B) dlen klen tree hs hp
  exact ⟨paramBlock_length (v := .B) dlen klen tree hs hp, field 0, field 1, field 2, field 3, field 4,
    (field 5).trans (orZeros_of_length hs), (field 6).trans (orZeros_of_length hp), by decide⟩

/-- Settles O17: the field law at the widths of variant S, which has no reserved bytes; the example is evaluated. -/
theorem parameterBlockLayoutS : Obligations.ParameterBlockLayoutS := by
  intro dlen klen tree salt pers _ hs hp P
  have field := paramBlock_field (v := .S) dlen klen tree hs hp
  exact ⟨paramBlock_length (v := .S) dlen klen tree hs hp, field 0, field 1, field 2, field 3,
    (field 5).trans (orZeros_of_length hs), (field 6).trans (orZeros_of_length hp), by decide⟩

/-- Settles O18: the blocks are equal, both lengths are admitted, and NEW reads nothing else of the two operands. -/
theorem absentSaltIsZeros : Obligations.AbsentSaltIsZeros := by
  refine ⟨fun v dlen klen tree salt pers => ⟨paramBlock_absent_salt dlen klen tree pers,
    paramBlock_absent_pers dlen klen tree salt⟩, fun v ln dlen tree key salt pers s => ⟨?_, ?_⟩⟩
  · exact exec_new_congr (by simp [ParametersInRange]) (paramBlock_absent_salt ..) ln s
  · exact exec_new_congr (by simp [ParametersInRange]) (paramBlock_absent_pers ..) ln s

/-- Settles O19: word 0 and the later words of the default block; the example is evaluated. -/
theorem defaultParameterWords : Obligations.DefaultParameterWords :=
  ⟨fun v dlen _ hk => ⟨paramWords_default_zero v dlen hk,
    fun i hi => paramWords_default_later v dlen _ (Fin.val_ne_zero_iff.mpr hi) i.isLt⟩,
    fun v P => loadWords_toList 8 P, by decide⟩

/-- Settles O30: no command but a NEW out of range answers this STATUS, and every such NEW does. -/
theorem invalidParameterExactly : Obligations.InvalidParameterExactly := by
  intro i s
  simp only [← not_inRange_iff]
  constructor
  · rintro ⟨t, hexec, hrsp⟩
    exact answers_invalidParameter ⟨t, [], hexec, by rw [hrsp, responseBytes_nil]; rfl⟩
  · rintro ⟨v, ln, dlen, tree, key, salt, pers, rfl, hout⟩
    exact ⟨_, execNew_invalid hout ln tree s, by rw [raise_rsp, responseBytes_nil]; rfl⟩

end Sys2Proof
end

section
/-! SUPPORT. Proofs of the statements about the compression function, `GRewritesFourWords`, `RoundOrder` and
`CompressInitAndFold`, with the laws they need: what G writes and leaves, a round as its two passes, the words the
final flag inverts, and one word of the final fold. -/

namespace Sys2Proof.Machine

variable {v : Variant}

/-! ## G (R104) -/

/-- The first or the last four assignments of G: they differ in the message word and the two rotations (R104). -/
def mixHalf (w : Vector (Word v) 16) (a b c d : Fin 16) (x : Word v) (r r' : Nat) : Vector (Word v) 16 :=
  let w := w.set a (wadd (wadd w[a] w[b]) x)
  let w := w.set d (rotr (wxor w[d] w[a]) r)
  let w := w.set c (wadd w[c] w[d])
  w.set b (rotr (wxor w[b] w[c]) r')

theorem mixG_eq_halves (w : Vector (Word v) 16) (a b c d : Fin 16) (x y : Word v) :
    mixG v w a b c d x y = mixHalf (mixHalf w a b c d x (rot v).1 (rot v).2.1) a b c d y (rot v).2.2.1 (rot v).2.2.2 :=
  rfl

section
variable (w : Vector (Word v) 16) {a b c d k : Fin 16} (x y : Word v) (r r' : Nat)

theorem mixHalf_other (ha : k ≠ a) (hb : k ≠ b) (hc : k ≠ c) (hd : k ≠ d) : (mixHalf w a b c d x r r')[k] = w[k] := by
  simp only [mixHalf, getElem_setWord, if_neg ha, if_neg hb, if_neg hc, if_neg hd]

theorem mixG_other (ha : k ≠ a) (hb : k ≠ b) (hc : k ≠ c) (hd : k ≠ d) : (mixG v w a b c d x y)[k] = w[k] := by
  rw [mixG_eq_halves, mixHalf_other _ _ _ _ ha hb hc hd, mixHalf_other _ _ _ _ ha hb hc hd]

/-- The four words after half of G: the assignments in order, each on what those before it wrote. -/
theorem mixHalf_words (hab : a ≠ b) (hac : a ≠ c) (had : a ≠ d) (hbc : b ≠ c) (hbd : b ≠ d) (hcd : c ≠ d) :
    let u := mixHalf w a b c d x r r'
    let a' := wadd (wadd w[a] w[b]) x
    let d' := rotr (wxor w[d] a') r
    let c' := wadd w[c] d'
    u[a] = a' ∧ u[b] = rotr (wxor w[b] c') r' ∧ u[c] = c' ∧ u[d] = d' := by
  simp only [mixHalf, getElem_setWord, if_true, hab, hac, had, hbc, hbd, hcd, hab.symm, hac.symm, had.symm, hbc.symm,
    hbd.symm, hcd.symm, if_false, and_self]

end

theorem rotr_zeroWord (n : Nat) : rotr (0#v.W) n = 0#v.W :=
  rotr_of_const_bits (fun _ _ => BitVec.getLsbD_zero) n

/-- Zeros with zero message words: every assignment writes a zero over a zero. -/
theorem mixG_zeros (a b c d : Fin 16) :
    mixG v (Vector.replicate 16 (0#v.W)) a b c d (0#v.W) (0#v.W) = Vector.replicate 16 (0#v.W) := by
  simp only [mixG, Fin.getElem_fin, Vector.getElem_replicate, wadd_zero, wxor_self, rotr_zeroWord,
    Vector.set_replicate_self]

/-! ## The round (R106) -/

/-- The column pass is complete before the diagonal pass starts. -/
theorem mixRound_eq_passes (m w : Vector (Word v) 16) (r : Nat) :
    mixRound v m w r =
      (diagonalPass (sigmaRow r)).foldl (applyG v m) ((columnPass (sigmaRow r)).foldl (applyG v m) w) :=
  List.foldl_append

/-! ## The working vector and the fold (R108) -/

section
variable (f ln : Bool) (w : Vector (Word v) 16)

theorem finalInvert_lt {k : Nat} (hk : k < 14) : (finalInvert f ln w)[k] = w[k] := by
  unfold finalInvert
  split
  · rfl
  · rw [Vector.getElem_set_ne _ _ (by omega)]
  · rw [Vector.getElem_set_ne _ _ (by omega), Vector.getElem_set_ne _ _ (by omega)]

theorem finalInvert_14 : (finalInvert f ln w)[14] = if f then ~~~w[14] else w[14] := by
  cases f <;> cases ln <;> simp [finalInvert]

theorem finalInvert_15 : (finalInvert f ln w)[15] = if f && ln then ~~~w[15] else w[15] := by
  cases f <;> cases ln <;> simp [finalInvert]

end

theorem foldBack_getElem (h : Vector (Word v) 8) (w : Vector (Word v) 16) (i : Fin 8) :
    (foldBack h w)[i] = h[i] ^^^ w[i.val]'(by omega) ^^^ w[i.val + 8]'(by omega) := by
  fin_cases i <;> rfl

section
variable (h : Vector (Word v) 8) (t0 t1 : Word v) (f ln : Bool)

theorem workInit_state (i : Fin 8) : (workInit v h t0 t1 f ln)[i.val]'(by omega) = h[i] := by
  rw [workInit, finalInvert_lt f ln _ (by omega)]
  fin_cases i <;> rfl

theorem workInit_iv (i : Fin 4) : (workInit v h t0 t1 f ln)[i.val + 8]'(by omega) = (iv v)[i.val]'(by omega) := by
  rw [workInit, finalInvert_lt f ln _ (by omega)]
  fin_cases i <;> rfl

end

end Sys2Proof.Machine

namespace Sys2Proof

open Machine

/-! ## The statements -/

/-- Settles O21: the second half of G works on the words the first half leaves; the examples are evaluated. -/
theorem gRewritesFourWords : Obligations.GRewritesFourWords := by
  refine ⟨?_, fun v => mixG_zeros 0 4 8 12, by decide, by decide⟩
  intro v w a b c d x y hab hac had hbc hbd hcd a1 d1 c1 b1 a2 d2 c2 b2
  obtain ⟨ha1, hb1, hc1, hd1⟩ := mixHalf_words w x (rot v).1 (rot v).2.1 hab hac had hbc hbd hcd
  obtain ⟨ha2, hb2, hc2, hd2⟩ := mixHalf_words (mixHalf w a b c d x (rot v).1 (rot v).2.1) y (rot v).2.2.1 (rot v).2.2.2
    hab hac had hbc hbd hcd
  simp only [ha1, hb1, hc1, hd1] at ha2 hb2 hc2 hd2
  exact ⟨ha2, hb2, hc2, hd2, fun _ => mixG_other w x y⟩

/-- Settles O22: the two passes, each four applications of G. -/
theorem roundOrder : Obligations.RoundOrder := by
  intro v m w r s
  rw [mixRound_eq_passes]
  rfl

/-- Settles O25: the words below 14 are not inverted, 14 and 15 are as the flags say, and the fold is word by word. -/
theorem compressInitAndFold : Obligations.CompressInitAndFold := fun v h block t0 t1 f ln =>
  ⟨workInit_state h t0 t1 f ln, workInit_iv h t0 t1 f ln, finalInvert_lt f ln _ (by decide),
    finalInvert_lt f ln _ (by decide), finalInvert_14 f ln _, finalInvert_15 f ln _,
    (compress_lastNode v h block t0 t1 false true).symm, foldBack_getElem h _⟩

end Sys2Proof
end

section
/-! SUPPORT. Proofs of the statements about NEW, FINALIZE, the counter, the closed form of a digest and ONESHOT,
`CounterAddition`, `NewStartsHasherOrRefuses`, `FinalizeDeliversOrRefuses`, `DigestClosedForm` and
`OneshotIsTheSequence`, with the laws they need: the two limbs after `counter_add`, the registers NEW leaves, UPDATE
and FINALIZE on a context whose registers are named, and a run of UPDATEs. -/

namespace Sys2Proof.Machine

variable {v : Variant}

/-! ## The limbs of the counter (R121) -/

section
variable (r : Regs v) (n : Nat)

theorem counterAdd_t0_toNat : (r.counterAdd n).t0.toNat = (r.counter + n) % 2 ^ (2 * v.W) % 2 ^ v.W := by
  rw [Regs.counterAdd, BitVec.toNat_ofNat, Nat.mod_mod]

theorem counterAdd_t1_toNat : (r.counterAdd n).t1.toNat = (r.counter + n) % 2 ^ (2 * v.W) / 2 ^ v.W := by
  have hT : (r.counter + n) % 2 ^ (2 * v.W) < 2 ^ v.W * 2 ^ v.W := by
    rw [← pow_two_W]; exact Nat.mod_lt _ (Nat.two_pow_pos _)
  rw [Regs.counterAdd, BitVec.toNat_ofNat, Nat.mod_eq_of_lt (Nat.div_lt_of_lt_mul hT)]

/-- The low limb takes the sum modulo `2^W`. -/
theorem counterAdd_t0 : (r.counterAdd n).t0 = wadd r.t0 (BitVec.ofNat v.W n) := by
  apply BitVec.eq_of_toNat_eq
  rw [counterAdd_t0_toNat, pow_two_W, Nat.mod_mul_left_mod, wadd_toNat, BitVec.toNat_ofNat, Nat.add_mod_mod,
    Regs.counter, Nat.add_right_comm, Nat.add_mul_mod_self_left]

/-- The high limb takes the carry out of the low one. -/
theorem counterAdd_t1_carry :
    (r.counterAdd n).t1.toNat = (r.t1.toNat + (r.t0.toNat + n) / 2 ^ v.W) % 2 ^ v.W := by
  rw [counterAdd_t1_toNat, pow_two_W, Nat.mod_mul_right_div_self, Regs.counter, Nat.add_right_comm,
    Nat.add_mul_div_left _ _ (Nat.two_pow_pos _), Nat.add_comm r.t1.toNat]

end

/-- A sum of two values below a modulus carries exactly when its remainder is below what was added. -/
theorem carry_eq {a n M : Nat} (ha : a < M) (hn : n < M) : (a + n) / M = if (a + n) % M < n then 1 else 0 := by
  by_cases h : a + n < M
  · rw [Nat.div_eq_of_lt h, Nat.mod_eq_of_lt h, if_neg (by omega)]
  · rw [Nat.div_eq_of_lt_le (k := 1) (by omega) (by omega), Nat.mod_eq_sub_mod (by omega), Nat.mod_eq_of_lt (by omega),
      if_pos (by omega)]

theorem BS_lt_pow (v : Variant) : v.BS < 2 ^ v.W := by cases v <;> decide

/-- The high limb is incremented exactly when the low one has wrapped. -/
theorem counterAdd_t1 (r : Regs v) {n : Nat} (hn : n ≤ v.BS) :
    (r.counterAdd n).t1 = if (wadd r.t0 (BitVec.ofNat v.W n)).toNat < n then wadd r.t1 (1#v.W) else r.t1 := by
  have hlt := Nat.lt_of_le_of_lt hn (BS_lt_pow v)
  apply BitVec.eq_of_toNat_eq
  rw [counterAdd_t1_carry, carry_eq r.t0.isLt hlt, wadd_toNat, BitVec.toNat_ofNat, Nat.mod_eq_of_lt hlt]
  split
  · rw [wadd_toNat, BitVec.toNat_ofNat, Nat.add_mod_mod]
  · rw [Nat.add_zero, Nat.mod_eq_of_lt r.t1.isLt]

/-! ## The registers NEW leaves (R123, R124) -/

section
variable (ln : Bool) {dlen : Byte} (tree : Option TreeFields) {key salt pers : Bytes} (epoch : Nat)

/-- The digest length and the last-node flag are those of the header. -/
theorem newRegs_params (h : ParametersInRange v dlen.toNat key.length salt.length pers.length) :
    (newRegs v ln dlen tree key salt pers epoch).outlen.toNat = dlen.toNat ∧
    (newRegs v ln dlen tree key salt pers epoch).lastNode = ln := by
  obtain ⟨hout, hlast, -⟩ := absorb_keeps
    (Regs.fresh v ln dlen (paramBlock v dlen key.length (tree.getD defaultTree) salt pers) epoch) (keyBlock v key)
  obtain ⟨-, -, hlt, -⟩ := inRange_bounds v h
  refine ⟨?_, hlast⟩
  rw [newRegs, hout, Regs.fresh, BitVec.toNat_setWidth, Nat.mod_eq_of_lt hlt]

/-- NEW has absorbed the key block; data absorbed after it follows it. -/
theorem newRegs_absorbed (dlen : Byte) (key salt pers D : Bytes) :
    ∃ n, Absorbed 0 (initialState v (paramBlock v dlen key.length (tree.getD defaultTree) salt pers))
      (keyBlock v key ++ D) ((newRegs v ln dlen tree key salt pers epoch).absorb D) n := by
  obtain ⟨n, hnew⟩ := absorbed_absorb (absorbed_fresh ln dlen
    (paramBlock v dlen key.length (tree.getD defaultTree) salt pers) epoch) (keyBlock v key)
  exact absorbed_absorb hnew D

/-- The key block is held, not compressed: the state is the initial one, the counter is zero. -/
theorem newRegs_held (hk : key.length ≤ v.BS) :
    let r := newRegs v ln dlen tree key salt pers epoch
    r.h = initialState v (paramBlock v dlen key.length (tree.getD defaultTree) salt pers) ∧
    r.t0 = 0#v.W ∧ r.t1 = 0#v.W ∧ r.buflen.val = (keyBlock v key).length ∧
    r.memRead 0 r.buflen.val = keyBlock v key := by
  intro r
  have hfit : (keyBlock v key).length ≤ v.BS := by
    rw [keyBlock_length v key hk]
    split <;> omega
  obtain ⟨hh, h0, h1, hlen, -⟩ := absorb_fits
    (Regs.fresh v ln dlen (paramBlock v dlen key.length (tree.getD defaultTree) salt pers) epoch) (keyBlock v key)
    ((Nat.zero_add _).trans_le hfit)
  have hbuflen : r.buflen.val = (keyBlock v key).length := hlen.trans (Nat.zero_add _)
  obtain ⟨n, a⟩ := newRegs_absorbed (v := v) ln tree epoch dlen key salt pers []
  have hblocks : v.BS * n = 0 := by
    have hsum : r.buflen.val + v.BS * n = (keyBlock v key).length := by
      simpa only [List.append_nil, absorb_nil] using a.len
    omega
  have hheld := a.held
  rw [hblocks, List.append_nil, List.drop_zero] at hheld
  exact ⟨hh, h0, h1, hbuflen, hheld⟩

end

/-! ## The commands on a context whose registers are named -/

theorem raise_eq (s : State) (e : EngineError) :
    s.raise e = { s with rsp := s.rsp ++ [e.status.code, 0#8, 0#8, 0#8] } := by
  rw [State.raise, State.respond, responseBytes_nil]

/-- The response that carries a digest: its length fits RLEN (R55). -/
theorem responseBytes_digest (r : Regs v) : responseBytes .ok r.digest = responseOf 0#8 r.digest :=
  responseBytes_eq .ok r.digest (Nat.lt_of_le_of_lt (digest_length_le r) (by decide))

theorem execAll_cons_next {i : Instr} {s t : State} (h : exec i s = .next t) (rest : List Instr) :
    execAll (i :: rest) s = execAll rest t := by
  rw [execAll, h]

/-- NEW with parameters in range (R123). -/
theorem exec_new_installs {dlen : Byte} {key salt pers : Bytes}
    (h : ParametersInRange v dlen.toNat key.length salt.length pers.length) (ln : Bool) (tree : Option TreeFields)
    (s : State) : exec (.new v ln dlen tree key salt pers) s =
      .next ((s.install v (newRegs v ln dlen tree key salt pers (s.ctx.regs.epoch + 1))).respond .ok []) :=
  execNew_valid h ln tree s

/-- NEW with a parameter out of range (R141). -/
theorem exec_new_refused {dlen : Byte} {key salt pers : Bytes}
    (h : ¬ ParametersInRange v dlen.toNat key.length salt.length pers.length) (ln : Bool) (tree : Option TreeFields)
    (s : State) : exec (.new v ln dlen tree key salt pers) s = .next (s.raise .invalidParameter) :=
  execNew_invalid h ln tree s

section
variable {s : State} {r : Regs v} (hp : s.phase = .absorbing) (hc : s.ctx = ⟨v, r⟩)
include hp hc

/-- UPDATE of a hasher in progress (R125). -/
theorem exec_update_absorbs (data : Bytes) :
    exec (.update data) s = .next (State.respond { s with ctx := ⟨v, r.absorb data⟩ } .ok []) := by
  obtain ⟨phase, ctx, cmd, rsp, resetIn⟩ := s
  cases hc
  exact execUpdate_absorbing hp data

/-- FINALIZE of a hasher in progress (R126). -/
theorem exec_finalize_closes :
    exec .finalize s =
      .next (State.respond { s with phase := .finalized, ctx := ⟨v, r.close⟩ } .ok r.close.digest) := by
  obtain ⟨phase, ctx, cmd, rsp, resetIn⟩ := s
  cases hc
  exact execFinalize_absorbing hp

/-- UPDATEs one after the other absorb their data in order (R129). -/
theorem execAll_updates_absorb (chunks : List Bytes) :
    ∃ t, execAll (chunks.map Instr.update) s = .next t ∧ t.phase = .absorbing ∧
      t.ctx = ⟨v, r.absorb chunks.flatten⟩ := by
  induction chunks generalizing s r with
  | nil => exact ⟨s, rfl, hp, hc⟩
  | cons data chunks ih =>
    obtain ⟨t, hrun, hphase, hctx⟩ := ih (s := State.respond { s with ctx := ⟨v, r.absorb data⟩ } .ok []) hp rfl
    refine ⟨t, ?_, hphase, ?_⟩
    · rw [List.map_cons, execAll_cons_next (exec_update_absorbs hp hc data), hrun]
    · rw [hctx, List.flatten_cons, absorb_append]

end

/-- The bytes of one response are what came since the state before it. -/
theorem responseSince_append {s t : State} {p : Bytes} (h : t.rsp = s.rsp ++ p) : responseSince s t = p := by
  rw [responseSince, h, List.drop_left]

section
variable {dlen : Byte} {key salt pers : Bytes}

/-- A NEW in range and any UPDATEs leave the key block and the data absorbed (R123, R125). -/
theorem execAll_new_updates (h : ParametersInRange v dlen.toNat key.length salt.length pers.length) (ln : Bool)
    (tree : Option TreeFields) (chunks : List Bytes) (s : State) :
    ∃ t, execAll (.new v ln dlen tree key salt pers :: chunks.map Instr.update) s = .next t ∧ t.phase = .absorbing ∧
      t.ctx = ⟨v, (newRegs v ln dlen tree key salt pers (s.ctx.regs.epoch + 1)).absorb chunks.flatten⟩ := by
  rw [execAll_cons_next (exec_new_installs h ln tree s)]
  exact execAll_updates_absorb rfl rfl chunks

/-- The digest after a NEW in range and any data is that of the closed form (R130). -/
theorem newRegs_absorb_digest (h : ParametersInRange v dlen.toNat key.length salt.length pers.length) (ln : Bool)
    (tree : Option TreeFields) (epoch : Nat) (D : Bytes) :
    ((newRegs v ln dlen tree key salt pers epoch).absorb D).close.digest =
      closedDigest v (initialState v (paramBlock v dlen key.length (tree.getD defaultTree) salt pers)) dlen.toNat ln
        (keyBlock v key ++ D) := by
  obtain ⟨n, habs⟩ := newRegs_absorbed (v := v) ln tree epoch dlen key salt pers D
  obtain ⟨hout, hlast, -⟩ := absorb_keeps (newRegs v ln dlen tree key salt pers epoch) D
  obtain ⟨hdlen, hln⟩ := newRegs_params (v := v) ln tree epoch h
  rw [Regs.digest, absorbed_close habs, close_outlen, hout, hdlen, hlast, hln, closedDigest]

end

/-! ## ONESHOT (R61, R128) -/

section
variable {dlen : Byte} {key : Bytes}

/-- With parameters in range ONESHOT is its sequence of commands: NEW's response is OK. -/
theorem oneshot_inRange (h : ParametersInRange v dlen.toNat key.length 0 0) (data : Bytes) (s : State) :
    oneshot v dlen key data s =
      execAll (.new v false dlen none key [] [] :: oneshotUpdates data ++ [.finalize]) s := by
  have hnew := exec_new_installs (salt := []) (pers := []) h false none s
  rw [oneshot, List.cons_append, execAll_cons_next hnew, hnew]
  exact if_pos (responseSince_append rfl)

/-- Otherwise ONESHOT is its refused NEW. -/
theorem oneshot_refused (h : ¬ ParametersInRange v dlen.toNat key.length 0 0) (data : Bytes) (s : State) :
    oneshot v dlen key data s = .next (s.raise .invalidParameter) := by
  have hsince : responseSince s (s.raise .invalidParameter) = responseBytes .invalidParameter [] :=
    responseSince_append rfl
  rw [oneshot, exec_new_refused (salt := []) (pers := []) h]
  exact if_neg (by rw [hsince, responseBytes_nil, responseBytes_nil]; decide)

/-- The pieces of ONESHOT's data are all of it, in order (R61). -/
theorem oneshot_pieces_flatten (data : Bytes) : (pieces updateMax data.length data).flatten = data :=
  pieces_flatten updateMax (by decide) data.length data (Nat.le_refl _)

end

end Sys2Proof.Machine

namespace Sys2Proof

open Machine

/-! ## The statements -/

/-- Settles O28: the limbs of the sum, each as R121 computes it; the corner cases are the limb laws at fixed words. -/
theorem counterAddition : Obligations.CounterAddition := by
  refine ⟨fun v r n hn => ⟨counterAdd_t0_toNat r n, counterAdd_t1_toNat r n, counterAdd_t0 r n,
    counterAdd_t1 r hn, rfl⟩, fun r h0 h1 => ?_, fun r h0 h1 => ?_, fun r h0 h1 => ?_, fun v r => counterAdd_zero r⟩
  all_goals
    rw [counterAdd_t0, counterAdd_t1 r (by decide), h0, h1]
    decide

/-- Settles O29: in range NEW leaves `newRegs`, which hold the key block; out of range it raises the error. -/
theorem newStartsHasherOrRefuses : Obligations.NewStartsHasherOrRefuses := by
  intro v ln dlen tree key salt pers s
  refine ⟨fun h => ?_, fun h => ?_⟩
  · obtain ⟨-, -, -, hk⟩ := inRange_bounds v h
    obtain ⟨hh, h0, h1, hlen, hheld⟩ := newRegs_held (v := v) (dlen := dlen) (salt := salt) (pers := pers) ln tree
      (s.ctx.regs.epoch + 1) hk
    obtain ⟨hdlen, hln⟩ := newRegs_params (v := v) ln tree (s.ctx.regs.epoch + 1) h
    rw [keyBlock_length v key hk] at hlen
    refine ⟨_, _, exec_new_installs h ln tree s, rfl, rfl, rfl, rfl, ?_, hh, h0, h1, hdlen, hln,
      fun hz => ?_, fun hpos => ?_⟩
    · rw [respond_rsp, responseBytes_nil]; rfl
    · rw [hlen, if_pos hz]
    · have hfull := hlen.trans (if_neg (Nat.ne_of_gt hpos))
      rw [hfull, keyBlock, if_neg (Nat.ne_of_gt hpos)] at hheld
      exact ⟨hfull, hheld⟩
  · exact (exec_new_refused h ln tree s).trans (by rw [raise_eq]; rfl)

/-- Settles O35: FINALIZE leaves the closed registers and sends their digest, or raises the error. -/
theorem finalizeDeliversOrRefuses : Obligations.FinalizeDeliversOrRefuses := by
  intro v r s hc
  refine ⟨fun hp => ?_, fun hp => ?_⟩
  · refine ⟨_, r.close, exec_finalize_closes hp hc, rfl, rfl, rfl, rfl, ?_, ?_, rfl, rfl, rfl, fun a ha => ?_,
      fun a hlo hhi => ?_, ?_⟩
    · rw [close_counter, counterAdd_counter]
    · rw [close_h, memRead_pad]; rfl
    · rw [readByte_close, if_neg ha]
    · rw [readByte_close, if_pos ⟨hlo, hhi⟩]
    · rw [respond_rsp, responseBytes_digest]; rfl
  · exact (execFinalize_refused hp).trans (by rw [raise_eq]; rfl)

/-- Settles O48: the registers before FINALIZE have absorbed the key block and the data, and their close is the closed
form. -/
theorem digestClosedForm : Obligations.DigestClosedForm := by
  intro v ln dlen tree key salt pers chunks s h
  obtain ⟨t, hrun, hphase, hctx⟩ := execAll_new_updates h ln tree chunks s
  refine ⟨t, _, hrun, exec_finalize_closes hphase hctx, rfl, ?_⟩
  rw [respond_rsp, responseBytes_digest, newRegs_absorb_digest h]
  rfl

/-- Settles O50: the pieces and the whole data leave the same registers, so FINALIZE answers the same. -/
theorem oneshotIsTheSequence : Obligations.OneshotIsTheSequence := by
  intro v dlen key data s
  refine ⟨fun h => ?_, fun h => ?_⟩
  · obtain ⟨t, hrun, hphase, hctx⟩ := execAll_new_updates (salt := []) (pers := []) h false none
      (pieces updateMax data.length data) s
    obtain ⟨u, hrun', hphase', hctx'⟩ := execAll_new_updates (salt := []) (pers := []) h false none [data] s
    rw [oneshot_pieces_flatten] at hctx
    rw [List.flatten_singleton] at hctx'
    have hone : oneshot v dlen key data s = _ :=
      calc
        _ = execAll (_ ++ [.finalize]) s := oneshot_inRange h data s
        _ = execAll [.finalize] t := execAll_append hrun [.finalize]
        _ = _ := execAll_cons_next (exec_finalize_closes hphase hctx) []
    refine ⟨_, u, _, hone, rfl, hrun', exec_finalize_closes hphase' hctx', rfl, ?_⟩
    rw [responseSince_append rfl]
    exact List.suffix_append _ _
  · rw [oneshot_refused h, raise_eq]; rfl

end Sys2Proof
end

section
/-! SUPPORT. Proofs of the statements about the exceptions, `IllegalHeaderAnswered`, `InvalidStateExactly` and
`ErrorsArePrecise`, with the laws they need: a row of the opcode table as the fields of a header, the bytes of a
decoded command, and the responses of a step that are not OK. -/

namespace Sys2Proof

open Machine

/-! ## The opcode table and the header's fields (R46 to R50, R57) -/

/-- Two header values agree on two adjacent fields exactly when they agree on each. -/
theorem extractLsb'_add_eq_iff (x y : BitVec 64) (k a b : Nat) :
    x.extractLsb' k (a + b) = y.extractLsb' k (a + b) ↔
      x.extractLsb' k a = y.extractLsb' k a ∧ x.extractLsb' (k + a) b = y.extractLsb' (k + a) b := by
  simp only [BitVec.eq_of_getLsbD_eq_iff, BitVec.getLsbD_extractLsb']
  constructor
  · intro h
    refine ⟨fun i hi => ?_, fun i hi => ?_⟩
    · simpa [hi, Nat.lt_add_right b hi] using h i (by omega)
    · simpa [hi, Nat.add_assoc] using h (a + i) (by omega)
  · rintro ⟨hlo, hhi⟩ i hi
    by_cases hia : i < a
    · simpa [hi, hia] using hlo i hia
    · simpa [hi, show i - a < b by omega, show k + a + (i - a) = k + i by omega] using hhi (i - a) (by omega)

/-- A field that lies in the mask keeps its value. -/
theorem masked_field {M : BitVec 64} {k n : Nat} (hM : M.extractLsb' k n = BitVec.allOnes n) (H : BitVec 64) :
    (H &&& M).extractLsb' k n = H.extractLsb' k n := by
  rw [BitVec.extractLsb'_and, hM, BitVec.and_allOnes]

/-- A field outside the mask is cleared. -/
theorem unmasked_field {M : BitVec 64} {k n : Nat} (hM : M.extractLsb' k n = 0#n) (H : BitVec 64) :
    (H &&& M).extractLsb' k n = 0#n := by
  rw [BitVec.extractLsb'_and, hM, BitVec.and_zero]

/-- The masked header and the match, compared below bit `k` and from it up. -/
theorem masked_eq_iff (H M m : BitVec 64) (k : Nat) (hk : k ≤ 64) :
    H &&& M = m ↔ (H &&& M).extractLsb' 0 k = m.extractLsb' 0 k ∧
      (H &&& M).extractLsb' k (64 - k) = m.extractLsb' k (64 - k) := by
  have hsplit := extractLsb'_add_eq_iff (H &&& M) m 0 k (64 - k)
  rw [Nat.zero_add, Nat.add_sub_cancel' hk] at hsplit
  rw [← hsplit, BitVec.extractLsb'_eq_self, BitVec.extractLsb'_eq_self]

/-- The row of NEW masks OP, the reserved bits 15:11 and the reserved bits 63:48 (R47). -/
theorem matchesRow_new (H : BitVec 64) : matchesRow .new H ↔
    H.extractLsb' 0 8 = 0x01#8 ∧ H.extractLsb' 11 5 = 0#5 ∧ H.extractLsb' 48 16 = 0#16 := by
  rw [matchesRow, masked_eq_iff _ _ _ 8 (by decide), extractLsb'_add_eq_iff _ _ 8 3 53,
    extractLsb'_add_eq_iff _ _ 11 5 48, extractLsb'_add_eq_iff _ _ 16 32 16, masked_field (by decide),
    unmasked_field (by decide), masked_field (by decide), unmasked_field (by decide), masked_field (by decide)]
  simp [tableRow]

/-- The row of UPDATE masks OP and the reserved bits 31:8 (R48). -/
theorem matchesRow_update (H : BitVec 64) : matchesRow .update H ↔
    H.extractLsb' 0 8 = 0x02#8 ∧ H.extractLsb' 8 24 = 0#24 := by
  rw [matchesRow, masked_eq_iff _ _ _ 8 (by decide), extractLsb'_add_eq_iff _ _ 8 24 32, masked_field (by decide),
    masked_field (by decide), unmasked_field (by decide)]
  simp [tableRow]

/-- The row of FINALIZE masks the whole header (R49). -/
theorem matchesRow_finalize (H : BitVec 64) : matchesRow .finalize H ↔
    H.extractLsb' 0 8 = 0x03#8 ∧ H.extractLsb' 8 56 = 0#56 := by
  rw [matchesRow, masked_eq_iff _ _ _ 8 (by decide), masked_field (by decide), masked_field (by decide)]
  simp [tableRow]

/-- The row of COMPRESS masks OP and the reserved bits 63:11 (R50). -/
theorem matchesRow_compress (H : BitVec 64) : matchesRow .compress H ↔
    H.extractLsb' 0 8 = 0x04#8 ∧ H.extractLsb' 11 53 = 0#53 := by
  rw [matchesRow, masked_eq_iff _ _ _ 8 (by decide), extractLsb'_add_eq_iff _ _ 8 3 53, masked_field (by decide),
    unmasked_field (by decide), masked_field (by decide)]
  simp [tableRow]

/-- The opcode of a header is the one in whose row its OP stands (R46). -/
theorem opOf_eq_some_iff_field (H : BitVec 64) (o : Op) :
    opOf H = some o ↔ H.extractLsb' 0 8 = (tableRow o).2.extractLsb' 0 8 := by
  rw [opOf_eq_some, ← opField_toNat, ← BitVec.toNat_inj]
  cases o <;> rfl

/-- The decoder takes for a command just the headers that match the command's row (R57). -/
theorem legal_iff_matchesRow (H : BitVec 64) (o : Op) :
    (opOf H = some o ∧ reservedClear o H = true) ↔ matchesRow o H := by
  rw [opOf_eq_some_iff_field]
  cases o with
  | new => simp [reservedClear, tableRow, matchesRow_new]
  | update => simp [reservedClear, tableRow, matchesRow_update]
  | finalize => simp [reservedClear, tableRow, matchesRow_finalize]
  | compress => simp [reservedClear, tableRow, matchesRow_compress]

/-- Bytes that are an illegal header have no row in the table (R57). -/
theorem noRow_of_decode_illegal {s rest : Bytes} {why : Illegal} (h : decode s = .illegal why rest) :
    (∀ o, ¬ matchesRow o (headerOf s)) ∧ rest = s.drop 8 := by
  obtain ⟨_, e⟩ | ⟨_, hno, why', e⟩ | ⟨o, _, _, _, _, e⟩ | ⟨o, _, _, _, _, e⟩ := decode_cases s <;>
    rw [e] at h <;> cases h
  exact ⟨fun o hm => hno o ((legal_iff_matchesRow _ o).mpr hm), rfl⟩

/-- A header without a row in the table is illegal, and takes its eight bytes only (R57). -/
theorem decode_noRow {hd : Bytes} (rest : Bytes) (h8 : hd.length = 8) (hno : ∀ o, ¬ matchesRow o (headerOf hd)) :
    ∃ why, decode (hd ++ rest) = .illegal why rest := by
  have hlegal (o : Op) (ho : opOf (headerOf (hd ++ rest)) = some o)
      (hr : reservedClear o (headerOf (hd ++ rest)) = true) : False := by
    have hm := (legal_iff_matchesRow _ o).mp ⟨ho, hr⟩
    rw [headerOf_append_eq rest h8] at hm
    exact hno o hm
  obtain ⟨hlt, _⟩ | ⟨_, _, why, e⟩ | ⟨o, _, ho, hr, _⟩ | ⟨o, _, ho, hr, _⟩ := decode_cases (hd ++ rest)
  · rw [List.length_append] at hlt
    omega
  · rw [List.drop_left' h8] at e
    exact ⟨why, e⟩
  · exact (hlegal o ho hr).elim
  · exact (hlegal o ho hr).elim

/-! ## The bytes of a decoded command (R45 to R54) -/

/-- An integer read from `n` bytes into a register that holds them, written back as `n` bytes (R7). -/
theorem leBytes_ofNat_leNat {s : Bytes} {n w : Nat} (hs : s.length = n) (hw : 256 ^ n ≤ 2 ^ w) :
    leBytes n (BitVec.ofNat w (leNat s)).toNat = s := by
  subst hs
  rw [BitVec.toNat_ofNat, Nat.mod_eq_of_lt (Nat.lt_of_lt_of_le (leNat_lt s) hw), leBytes_leNat]

/-- The bytes of a header are those of its value (R45). -/
theorem leBytes_headerOf {s : Bytes} (h8 : 8 ≤ s.length) : leBytes 8 (headerOf s).toNat = s.take 8 := by
  have ht : (s.take 8).length = 8 := by rw [List.length_take]; omega
  have hH := headerOf_append (s.take 8) (s.drop 8) ht
  have hbytes := leBytes_leNat (s.take 8)
  rwa [ht, ← hH, List.take_append_drop] at hbytes

/-- A one-bit field as a number. -/
theorem decide_mod_two_toNat (n : Nat) : (decide (n % 2 = 1)).toNat = n % 2 := by
  rcases Nat.mod_two_eq_zero_or_one n with h | h <;> rw [h] <;> rfl

theorem variantBit_variantField (H : BitVec 64) : (variantBit (variantField H)).toNat = H.toNat / 2 ^ 8 % 2 := by
  rw [variantField_eq]
  split
  · next h => rw [h]; rfl
  · next h => rw [(Nat.mod_two_eq_zero_or_one _).resolve_right h]; rfl

/-- The two bytes at an address of a string. -/
theorem getD_pair {s : Bytes} {k : Nat} (h : k + 2 ≤ s.length) :
    [s.getD k 0#8, s.getD (k + 1) 0#8] = (s.drop k).take 2 := by
  have hk : k < s.length := by omega
  have hk1 : k + 1 < s.length := by omega
  rw [List.drop_eq_getElem_cons hk, List.drop_eq_getElem_cons hk1, List.getD_eq_getElem s 0#8 hk,
    List.getD_eq_getElem s 0#8 hk1]
  rfl

/-- The descriptor that a descriptor's fields encode is the descriptor itself (R52). -/
theorem treeBytes_parseTree {v : Variant} {d : Bytes} (hd : d.length = v.TDBYTES) :
    treeBytes v (parseTree v d) = d := by
  have hsize : v.TDBYTES = 8 + v.NOBYTES := by cases v <;> rfl
  have hoff : 256 ^ v.NOBYTES ≤ 2 ^ 64 := by cases v <;> decide
  have hlast : (d.drop (6 + v.NOBYTES)).length ≤ 2 := by rw [List.length_drop]; omega
  calc treeBytes v (parseTree v d)
    _ = (d.drop 0).take 2 ++ (d.drop 2).take 4 ++ (d.drop 6).take v.NOBYTES ++ (d.drop (6 + v.NOBYTES)).take 2 := by
      rw [← getD_pair (by omega), ← getD_pair (by omega), treeBytes]
      congr 3
      · exact leBytes_ofNat_leNat (by rw [List.length_take, List.length_drop]; omega) (by decide)
      · exact leBytes_ofNat_leNat (by rw [List.length_take, List.length_drop]; omega) hoff
      · simp only [parseTree, Nat.add_right_comm 6 _ 1]
    _ = d := by
      rw [List.take_of_length_le hlast, ← List.drop_drop, List.append_assoc, List.take_append_drop,
        show d.drop 6 = (d.drop 2).drop 4 by rw [List.drop_drop], List.append_assoc, List.take_append_drop,
        List.drop_zero, List.take_append_drop]

/-- A string cut in two at a given length. -/
theorem exists_append_of_length {s : Bytes} {a b : Nat} (h : s.length = a + b) :
    ∃ u w, s = u ++ w ∧ u.length = a ∧ w.length = b :=
  ⟨s.take a, s.drop a, (List.take_append_drop a s).symm, by rw [List.length_take]; omega,
    by rw [List.length_drop]; omega⟩

/-- The bytes of a header value, as numbers (R45). -/
theorem eq_leBytes_header {H : BitVec 64} {b0 b1 b2 b3 b4 b5 b6 b7 : Byte} (h0 : b0.toNat = H.toNat % 256)
    (h1 : b1.toNat = H.toNat / 2 ^ 8 % 256) (h2 : b2.toNat = H.toNat / 2 ^ 16 % 256)
    (h3 : b3.toNat = H.toNat / 2 ^ 24 % 256) (h4 : b4.toNat = H.toNat / 2 ^ 32 % 256)
    (h5 : b5.toNat = H.toNat / 2 ^ 40 % 256) (h6 : b6.toNat = H.toNat / 2 ^ 48 % 256)
    (h7 : b7.toNat = H.toNat / 2 ^ 56 % 256) :
    [b0, b1, b2, b3, b4, b5, b6, b7] = leBytes 8 H.toNat := by
  simp only [leBytes, Nat.div_div_eq_div_mul, List.cons.injEq, and_true, ← BitVec.toNat_inj, BitVec.toNat_ofNat]
  exact ⟨h0, h1, h2, h3, h4, h5, h6, h7⟩

/-- The flag byte of a header of format N or C whose bits 15:11 are 0 (R47, R50). -/
theorem flagByte_header {H : BitVec 64} (hz : H.toNat / 2 ^ 11 % 2 ^ 5 = 0) :
    (flagByte (variantBit (variantField H)) (bit9 H) (bit10 H)).toNat = H.toNat / 2 ^ 8 % 256 := by
  rw [flagByte_toNat, variantBit_variantField, bit9_eq, bit10_eq, decide_mod_two_toNat, decide_mod_two_toNat]
  omega

/-- A NEW decoded from a legal header and its payload encodes to that header and that payload
(R47, R53). -/
theorem encode_assembleNew {H : BitVec 64} {p : Bytes} (hop : H.toNat % 256 = 1)
    (hres : H.toNat / 2 ^ 11 % 2 ^ 5 = 0 ∧ H.toNat / 2 ^ 48 % 2 ^ 16 = 0) (hp : p.length = payloadLength .new H) :
    encodeHeader (assembleNew H p) = leBytes 8 H.toNat ∧ encodePayload (assembleNew H p) = p := by
  obtain ⟨hlow, hhigh⟩ := hres
  obtain ⟨p₂, pers, rfl, hp₂, hpers⟩ := exists_append_of_length hp
  obtain ⟨p₁, salt, rfl, hp₁, hsalt⟩ := exists_append_of_length hp₂
  obtain ⟨td, key, rfl, htd, hkey⟩ := exists_append_of_length hp₁
  rw [assembleNew_append rfl rfl rfl rfl htd hkey hsalt hpers]
  constructor
  · have htree : (if bit10 H then some (parseTree (variantField H) td) else none).isSome = bit10 H := by
      cases bit10 H <;> rfl
    rw [encodeHeader, htree, hkey, hsalt, hpers]
    apply eq_leBytes_header
    · exact hop.symm
    · exact flagByte_header hlow
    · exact dlenField_toNat H
    · rw [BitVec.toNat_ofNat, klenField_eq, Nat.mod_mod]
    · rw [BitVec.toNat_ofNat, slenField_eq, Nat.mod_mod]
    · rw [BitVec.toNat_ofNat, plenField_eq, Nat.mod_mod]
    · rw [BitVec.toNat_ofNat]; omega
    · rw [BitVec.toNat_ofNat]; omega
  · cases htp : bit10 H with
    | false =>
      rw [htp] at htd
      simp [encodePayload, List.eq_nil_of_length_eq_zero htd]
    | true =>
      rw [htp] at htd
      simp [encodePayload, treeBytes_parseTree htd]

/-- The same of an UPDATE (R48). -/
theorem encode_assembleUpdate {H : BitVec 64} {p : Bytes} (hop : H.toNat % 256 = 2)
    (hres : H.toNat / 2 ^ 8 % 2 ^ 24 = 0) (hp : p.length = payloadLength .update H) :
    encodeHeader (.update p) = leBytes 8 H.toNat ∧ encodePayload (.update p) = p := by
  rw [payloadLength, lenField_eq] at hp
  refine ⟨?_, rfl⟩
  rw [encodeHeader, hp]
  apply eq_leBytes_header
  · exact hop.symm
  all_goals rw [BitVec.toNat_ofNat]; omega

/-- The same of FINALIZE (R49). -/
theorem encode_assembleFinalize {H : BitVec 64} {p : Bytes} (hop : H.toNat % 256 = 3)
    (hres : H.toNat / 2 ^ 8 % 2 ^ 56 = 0) (hp : p.length = payloadLength .finalize H) :
    encodeHeader .finalize = leBytes 8 H.toNat ∧ encodePayload .finalize = p := by
  refine ⟨?_, (List.eq_nil_of_length_eq_zero hp).symm⟩
  rw [encodeHeader]
  apply eq_leBytes_header
  · exact hop.symm
  all_goals rw [BitVec.toNat_ofNat]; omega

/-- The same of COMPRESS (R50, R54). -/
theorem encode_assembleCompress {H : BitVec 64} {p : Bytes} (hop : H.toNat % 256 = 4)
    (hres : H.toNat / 2 ^ 11 % 2 ^ 53 = 0) (hp : p.length = payloadLength .compress H) :
    encodeHeader (assembleCompress H p) = leBytes 8 H.toNat ∧ encodePayload (assembleCompress H p) = p := by
  rw [payloadLength, Nat.two_mul, ← Nat.add_assoc] at hp
  obtain ⟨p₂, c1, rfl, hp₂, h1⟩ := exists_append_of_length hp
  obtain ⟨p₁, c0, rfl, hp₁, h0⟩ := exists_append_of_length hp₂
  obtain ⟨a, block, rfl, ha, hb⟩ := exists_append_of_length hp₁
  rw [assembleCompress_eq rfl rfl rfl, compressOf_append _ _ ha hb h0 h1]
  constructor
  · rw [encodeHeader]
    apply eq_leBytes_header
    · exact hop.symm
    · exact flagByte_header (by omega)
    all_goals rw [BitVec.toNat_ofNat]; omega
  · rw [encodePayload, loadWords_toList, wordsToBytes_bytesToWords 8 a ha, wordToBytes_bytesToWord c0 h0,
      wordToBytes_bytesToWord c1 h1]

/-- A command decoded from a legal header and its payload encodes to that header and that payload (R58). -/
theorem encode_assemble {o : Op} {H : BitVec 64} {p : Bytes} (hop : opOf H = some o)
    (hres : reservedClear o H = true) (hp : p.length = payloadLength o H) :
    encodeHeader (assemble o H p) = leBytes 8 H.toNat ∧ encodePayload (assemble o H p) = p := by
  rw [opOf_eq_some] at hop
  rw [reservedClear_iff] at hres
  cases o with
  | new => exact encode_assembleNew hop hres hp
  | update => exact encode_assembleUpdate hop hres hp
  | finalize => exact encode_assembleFinalize hop hres hp
  | compress => exact encode_assembleCompress hop hres hp

/-- The bytes the decoder takes for a command are the command's encoding (R58). -/
theorem encode_of_decode {s rest : Bytes} {i : Instr} (h : decode s = .command i rest) : encode i ++ rest = s := by
  obtain ⟨_, e⟩ | ⟨_, _, _, e⟩ | ⟨_, _, _, _, _, e⟩ | ⟨o, h8, hop, hres, hp, e⟩ := decode_cases s <;>
    rw [e] at h <;> cases h
  obtain ⟨hhead, hpay⟩ := encode_assemble (p := (s.drop 8).take (payloadLength o (headerOf s))) hop hres
    (by rw [List.length_take, List.length_drop]; omega)
  rw [encode, hpay, hhead, leBytes_headerOf h8, List.append_assoc, List.take_append_drop,
    List.take_append_drop]

end Sys2Proof

namespace Sys2Proof.Machine

/-! ## The responses that are not OK (R140 to R145) -/

/-- An illegal header on the channel is answered with IllegalCommand, its bytes removed (R57, R143). -/
theorem step_of_illegal {s : State} {why : Illegal} {rest : Bytes} (hr : s.resetIn = false)
    (hd : decode s.cmd = .illegal why rest) :
    step s = .next (State.raise { s with cmd := rest } .illegalCommand) := by
  have hne : s.cmd ≠ [] := fun he => by simp [he, decode, arrived] at hd
  simp [step, fetch, hr, hne, hd]

/-- A command answers OK or raises InvalidParameter, or it works on a hasher in progress, there is none, and it raises
InvalidState (R141, R142). -/
theorem exec_ok_or_raises (i : Instr) (s : State) :
    Answers i s .ok ∨ exec i s = .next (s.raise .invalidParameter) ∨
      (needsHasher i = true ∧ s.phase ≠ .absorbing ∧ exec i s = .next (s.raise .invalidState)) := by
  obtain ⟨_, _, _, _, _, _, _, _, _, hexec⟩ | ⟨_, _, _, _, _, _, _, _, _, hexec⟩ | ⟨_, _, _, hexec⟩ |
    ⟨_, _, hexec⟩ | ⟨hi, hp, hexec⟩ | ⟨_, _, _, _, _, _, _, _, hexec⟩ := exec_cases i s
  · exact .inl ⟨_, _, hexec, rfl⟩
  · exact .inr (.inl hexec)
  · exact .inl ⟨_, _, hexec, rfl⟩
  · exact .inl ⟨_, _, hexec, rfl⟩
  · exact .inr (.inr ⟨hi, hp, hexec⟩)
  · exact .inl ⟨_, _, hexec, rfl⟩

/-- UPDATE and FINALIZE raise InvalidState outside ABSORBING (R142). -/
theorem exec_refused_outside {i : Instr} {s : State} (hi : needsHasher i = true) (hp : s.phase ≠ .absorbing) :
    exec i s = .next (s.raise .invalidState) := by
  cases i with
  | new => cases hi
  | update data => exact execUpdate_refused hp data
  | finalize => exact execFinalize_refused hp
  | compress => cases hi

/-- InvalidState is answered to an UPDATE or a FINALIZE outside ABSORBING, and to nothing else (R142). -/
theorem answers_invalidState_iff {i : Instr} {s : State} :
    Answers i s .invalidState ↔ needsHasher i = true ∧ s.phase ≠ .absorbing := by
  constructor
  · intro h
    obtain hok | hexec | ⟨hi, hp, _⟩ := exec_ok_or_raises i s
    · exact absurd (answers_unique h hok) (by decide)
    · exact absurd (answers_unique h ⟨_, _, hexec, rfl⟩) (by decide)
    · exact ⟨hi, hp⟩
  · rintro ⟨hi, hp⟩
    exact ⟨_, [], exec_refused_outside hi hp, rfl⟩

/-- The STATUS of a response is its first byte (R55). -/
theorem status_of_rsp {s t : State} {st : Status} {p tail : Bytes} {b : Byte} (h : t.rsp = s.rsp ++ responseBytes st p)
    (hb : t.rsp = s.rsp ++ b :: tail) : b = st.code := by
  have heq : b :: tail = responseBytes st p := List.append_cancel_left (hb.symm.trans h)
  have hhead := responseBytes_head st p
  rw [← heq] at hhead
  exact Option.some.inj hhead

/-- A step whose response begins with a byte other than OK has raised an error whose STATUS is that byte: IllegalCommand
for an illegal header, another error for a command (R143, R145). -/
theorem step_raises {s t : State} {b : Byte} {tail : Bytes} (hstep : step s = .next t)
    (hrsp : t.rsp = s.rsp ++ b :: tail) (hb : b ≠ Status.ok.code) :
    ∃ (e : EngineError) (rest : Bytes), b = e.status.code ∧ t = State.raise { s with cmd := rest } e ∧
      ((e = .illegalCommand ∧ ∃ why, decode s.cmd = .illegal why rest) ∨
        (e ≠ .illegalCommand ∧ ∃ i, decode s.cmd = .command i rest)) := by
  obtain ⟨_, e⟩ | ⟨_, _, e⟩ | ⟨_, _, _, e⟩ | ⟨why, rest, _, hd, e⟩ | ⟨i, rest, _, hd, e⟩ := step_cases s <;>
    rw [e] at hstep
  · cases hstep
    simp at hrsp
  · cases hstep
  · cases hstep
  · cases hstep
    exact ⟨.illegalCommand, rest, status_of_rsp rfl hrsp, rfl, .inl ⟨rfl, why, hd⟩⟩
  · obtain ⟨u, p, hexec, hok⟩ | hexec | ⟨_, _, hexec⟩ := exec_ok_or_raises i { s with cmd := rest } <;>
      rw [hexec] at hstep <;> cases hstep
    · exact absurd (status_of_rsp hok hrsp) hb
    · exact ⟨.invalidParameter, rest, status_of_rsp rfl hrsp, rfl, .inr ⟨by decide, i, hd⟩⟩
    · exact ⟨.invalidState, rest, status_of_rsp rfl hrsp, rfl, .inr ⟨by decide, i, hd⟩⟩

end Sys2Proof.Machine

namespace Sys2Proof

open Machine

/-! ## The statements -/

/-- Settles O9: a header without a row decodes to an illegal one, which raises the error; and only a step that found
an illegal header raises it. -/
theorem illegalHeaderAnswered : Obligations.IllegalHeaderAnswered := by
  refine ⟨fun s hd rest hr h8 hcmd hno => ?_, fun s t hstep hrsp => ?_⟩
  · obtain ⟨why, hdec⟩ := decode_noRow rest h8 hno
    rw [← hcmd] at hdec
    rw [step_of_illegal hr hdec, raise_eq]
    rfl
  · obtain ⟨e, rest, hst, -, ⟨-, why, hdec⟩ | ⟨hne, -⟩⟩ := step_raises hstep hrsp (by decide)
    · exact (noRow_of_decode_illegal hdec).1
    · cases e with
      | illegalCommand => exact absurd rfl hne
      | invalidParameter => exact absurd hst (by decide)
      | invalidState => exact absurd hst (by decide)

/-- Settles O40: the response of the statement is that of `Answers` without payload. -/
theorem invalidStateExactly : Obligations.InvalidStateExactly := by
  intro i s
  constructor
  · rintro ⟨t, hexec, hrsp⟩
    exact answers_invalidState_iff.mp ⟨t, [], hexec, by rw [hrsp, responseBytes_nil]; rfl⟩
  · rintro ⟨hi, hp⟩
    exact ⟨_, exec_refused_outside hi hp, by rw [raise_rsp, responseBytes_nil]; rfl⟩

/-- Settles O41: such a step has raised the error on the state with the command's bytes removed, which are its
encoding or the eight bytes of an illegal header. -/
theorem errorsArePrecise : Obligations.ErrorsArePrecise := by
  intro s t st p hstep hrsp hst
  obtain ⟨e, rest, hcode, rfl, hdec⟩ := step_raises hstep hrsp (status_code_injective.ne hst)
  refine ⟨rest, ?_, by rw [raise_eq, hcode]⟩
  obtain ⟨-, why, hill⟩ | ⟨-, i, hcmd⟩ := hdec
  · exact .inr ⟨why, hill, (noRow_of_decode_illegal hill).2⟩
  · exact .inl ⟨i, hcmd, (encode_of_decode hcmd).symm⟩

end Sys2Proof
end

section
/-! SUPPORT. Proofs of the statements about the decoder, `DecodeOfEncode`, `EncodeOfDecode`, `LegalHeaderIsTableRow`,
`DecodeConsumesWhatTheHeaderSays`, `NewFromTheChannel` and `UpdateFromTheChannel`, with the laws they need: the fields
of the headers of NEW and UPDATE, a tree descriptor read back from its bytes, the operands of a decoded command. -/

namespace Sys2Proof

open Machine

/-! ## The header and the payload of NEW (R47, R52, R53) -/

/-- The header of NEW with the fields V, LN, TP, DLEN, KLEN, SLEN and PLEN (R47). -/
def newHeader (v : Variant) (ln tp : Bool) (dlen klen slen plen : Byte) : Bytes :=
  [0x01#8, flagByte (variantBit v) ln tp, dlen, klen, slen, plen, 0#8, 0#8]

section
variable (v : Variant) (ln tp : Bool) (dlen klen slen plen : Byte)

/-- The header of NEW as a number: the opcode, and the fields from bit 8 up. -/
theorem newHeader_toNat : (headerOf (newHeader v ln tp dlen klen slen plen)).toNat =
    1 + 2 ^ 8 * ((variantBit v).toNat + 2 * ln.toNat + 4 * tp.toNat) + 2 ^ 16 * dlen.toNat + 2 ^ 24 * klen.toNat +
      2 ^ 32 * slen.toNat + 2 ^ 40 * plen.toNat := by
  rw [headerOf_toNat rfl]
  simp only [newHeader, leNat, flagByte_toNat, BitVec.toNat_ofNat]
  ring

/-- The fields of the header of NEW (R47). -/
theorem newHeader_fields :
    let H := headerOf (newHeader v ln tp dlen klen slen plen)
    opOf H = some .new ∧ reservedClear .new H = true ∧ variantField H = v ∧ bit9 H = ln ∧ bit10 H = tp ∧
      dlenField H = dlen ∧ klenField H = klen.toNat ∧ slenField H = slen.toNat ∧ plenField H = plen.toNat := by
  intro H
  have hH : H.toNat = _ := newHeader_toNat v ln tp dlen klen slen plen
  have hv := Bool.toNat_lt (variantBit v)
  have hln := Bool.toNat_lt ln
  have htp := Bool.toNat_lt tp
  have hdlen := dlen.isLt
  have hklen := klen.isLt
  have hslen := slen.isLt
  have hplen := plen.isLt
  have hbit : H.toNat / 2 ^ 8 % 2 = (variantBit v).toNat := by omega
  refine ⟨?_, ?_, ?_, ?_, ?_, ?_, ?_, ?_, ?_⟩
  · rw [opOf_eq_some]; simp only; omega
  · rw [reservedClear_iff]; simp only; omega
  · rw [variantField_eq, hbit]; cases v <;> rfl
  · rw [bit9_eq]; exact bit_of_value _ _ _ (by omega)
  · rw [bit10_eq]; exact bit_of_value _ _ _ (by omega)
  · apply BitVec.eq_of_toNat_eq; rw [dlenField_toNat]; omega
  · rw [klenField_eq]; omega
  · rw [slenField_eq]; omega
  · rw [plenField_eq]; omega

end

/-- The header of NEW, then a descriptor if TP = 1, a key, a salt and a personalization of the lengths it names, are
that NEW (R47, R53). -/
theorem decode_new {v : Variant} {tp : Bool} {klen slen plen : Byte} {td key salt pers : Bytes} (ln : Bool)
    (dlen : Byte) (rest : Bytes) (htd : td.length = if tp then v.TDBYTES else 0) (hkey : key.length = klen.toNat)
    (hsalt : salt.length = slen.toNat) (hpers : pers.length = plen.toNat) :
    decode (newHeader v ln tp dlen klen slen plen ++ (td ++ key ++ salt ++ pers ++ rest)) =
      .command (.new v ln dlen (if tp then some (parseTree v td) else none) key salt pers) rest := by
  obtain ⟨hop, hres, hv, h9, h10, hdlen, hk, hs, hp⟩ := newHeader_fields v ln tp dlen klen slen plen
  rw [decode_header_payload rest rfl hop hres, assemble,
    assembleNew_append hv h9 h10 hdlen htd (hkey.trans hk.symm) (hsalt.trans hs.symm) (hpers.trans hp.symm)]
  simp only [payloadLength, hv, h10, hk, hs, hp, List.length_append, htd, hkey, hsalt, hpers]

/-- The fields read from the bytes of a descriptor are those it was written from (R52). -/
theorem parseTree_treeBytes {v : Variant} {t : TreeFields} (ht : t.fits v = true) :
    parseTree v (treeBytes v t) = t := by
  have hoff : t.nodeOffset.toNat < 256 ^ v.NOBYTES := by
    rwa [TreeFields.fits, decide_eq_true_eq, Nat.pow_mul] at ht
  have hleaf : t.leafLength.toNat < 256 ^ 4 := t.leafLength.isLt
  have hleafBytes : ((treeBytes v t).drop 2).take 4 = leBytes 4 t.leafLength.toNat := by cases v <;> rfl
  have hoffBytes : ((treeBytes v t).drop 6).take v.NOBYTES = leBytes v.NOBYTES t.nodeOffset.toNat := by cases v <;> rfl
  have hdepth : (treeBytes v t).getD (6 + v.NOBYTES) 0#8 = t.nodeDepth := by cases v <;> rfl
  have hinner : (treeBytes v t).getD (7 + v.NOBYTES) 0#8 = t.innerLength := by cases v <;> rfl
  rw [parseTree, hleafBytes, hoffBytes, hdepth, hinner, leNat_leBytes, leNat_leBytes,
    Nat.mod_eq_of_lt hleaf, Nat.mod_eq_of_lt hoff, BitVec.ofNat_toNat, BitVec.ofNat_toNat,
    BitVec.setWidth_eq, BitVec.setWidth_eq]
  rfl

/-- The descriptor bytes of a NEW, none if it has no tree fields (R52). -/
def descriptorBytes (v : Variant) (tree : Option TreeFields) : Bytes :=
  match tree with
  | some t => treeBytes v t
  | none => []

/-- The descriptor has the length TP names, and reads back as the tree fields (R52). -/
theorem descriptorBytes_read {v : Variant} {tree : Option TreeFields} (ht : ∀ t ∈ tree, t.fits v = true) :
    (descriptorBytes v tree).length = (if tree.isSome then v.TDBYTES else 0) ∧
      (if tree.isSome then some (parseTree v (descriptorBytes v tree)) else none) = tree := by
  cases tree with
  | none => exact ⟨rfl, rfl⟩
  | some t => exact ⟨treeBytes_length v t, congrArg some (parseTree_treeBytes (ht t rfl))⟩

/-- NEW from its header and its operands' bytes (R47, R52, R53). -/
theorem decode_new_operands {v : Variant} {tree : Option TreeFields} {klen slen plen : Byte} {key salt pers : Bytes}
    (ln : Bool) (dlen : Byte) (rest : Bytes) (ht : ∀ t ∈ tree, t.fits v = true) (hkey : key.length = klen.toNat)
    (hsalt : salt.length = slen.toNat) (hpers : pers.length = plen.toNat) :
    decode (newHeader v ln tree.isSome dlen klen slen plen ++ (descriptorBytes v tree ++ key ++ salt ++ pers ++ rest)) =
      .command (.new v ln dlen tree key salt pers) rest := by
  obtain ⟨hlen, hread⟩ := descriptorBytes_read ht
  rw [decode_new ln dlen rest hlen hkey hsalt hpers, hread]

/-! ## The header of UPDATE (R48) -/

/-- The header of UPDATE with the field LEN (R48). -/
def updateHeader (len : Nat) : Bytes := [0x02#8, 0#8, 0#8, 0#8] ++ leBytes 4 len

/-- The header of UPDATE and as many bytes as it names are that UPDATE (R48). -/
theorem decode_update {data : Bytes} (rest : Bytes) (hlen : data.length < 2 ^ 32) :
    decode (updateHeader data.length ++ (data ++ rest)) = .command (.update data) rest := by
  have h8 : (updateHeader data.length).length = 8 := by simp [updateHeader]
  have hH : (headerOf (updateHeader data.length)).toNat = 2 + 2 ^ 32 * data.length := by
    rw [headerOf_toNat h8, updateHeader, leNat_append, leNat_leBytes, Nat.mod_eq_of_lt (by omega)]
    rfl
  apply decode_header_payload (o := .update) rest h8
  · rw [opOf_eq_some]; simp only; omega
  · rw [reservedClear_iff]; simp only; omega
  · rw [payloadLength, lenField_eq]; omega

/-! ## Bytes as fields of a word -/

/-- The bytes of an integer are the fields of eight bits of its word (R7). -/
theorem leBytes_toNat_eq_fields {w : Nat} (x : BitVec w) (n : Nat) :
    leBytes n x.toNat = (List.range n).map fun k => x.extractLsb' (8 * k) 8 := by
  apply List.ext_getElem?
  intro k
  by_cases hk : k < n
  · rw [leBytes_getElem? n x.toNat k hk]
    simp only [List.getElem?_map, List.getElem?_range hk, Option.map_some, Option.some.injEq]
    apply BitVec.eq_of_toNat_eq
    rw [BitVec.toNat_ofNat, BitVec.extractLsb'_toNat, Nat.shiftRight_eq_div_pow, Nat.pow_mul]
  · rw [List.getElem?_eq_none (by simp; omega), List.getElem?_eq_none (by simp; omega)]

/-! ## The operands of a decoded command -/

/-- The tree fields of a descriptor fit the width the variant gives node_offset (R52). -/
theorem parseTree_fits (v : Variant) (d : Bytes) : (parseTree v d).fits v = true := by
  have hlt := leNat_lt ((d.drop 6).take v.NOBYTES)
  have hlen : ((d.drop 6).take v.NOBYTES).length ≤ v.NOBYTES := List.length_take_le ..
  rw [TreeFields.fits, decide_eq_true_eq, Nat.pow_mul, parseTree, BitVec.toNat_ofNat]
  exact Nat.lt_of_le_of_lt (Nat.mod_le _ _) (Nat.lt_of_lt_of_le hlt (Nat.pow_le_pow_right (by decide) hlen))

theorem optionalTree_fits (v : Variant) (tp : Bool) (d : Bytes) :
    (if tp then some (parseTree v d) else none).all (TreeFields.fits v) = true := by
  cases tp with
  | false => rfl
  | true => exact parseTree_fits v d

/-- A command assembled from a header and a payload of the length it names has an encoding (R51, R58). -/
theorem wellFormed_assemble {o : Op} {H : BitVec 64} {p : Bytes} (hp : p.length = payloadLength o H) :
    WellFormed (assemble o H p) := by
  cases o with
  | new =>
    have hk : klenField H < 256 := by rw [klenField_eq]; omega
    have hs : slenField H < 256 := by rw [slenField_eq]; omega
    have hq : plenField H < 256 := by rw [plenField_eq]; omega
    simp only [WellFormed, assemble, assembleNew, Instr.wellFormed, optionalTree_fits, List.length_take, Bool.true_and,
      Bool.and_eq_true, decide_eq_true_eq]
    omega
  | update =>
    rw [payloadLength, lenField_eq] at hp
    rw [WellFormed, assemble, Instr.wellFormed, decide_eq_true_eq]
    omega
  | finalize => rfl
  | compress =>
    rw [payloadLength] at hp
    simp only [WellFormed, assemble, assembleCompress, Instr.wellFormed, List.length_take, List.length_drop,
      decide_eq_true_eq]
    omega

/-! ## What the header says of the bytes after it (R51, R57, R58) -/

/-- A legal header with fewer bytes after it than it names is no command yet (R31, R166). -/
theorem decode_short {hd rest : Bytes} {o : Op} (h8 : hd.length = 8) (hm : matchesRow o (headerOf hd))
    (hshort : rest.length < payloadLength o (headerOf hd)) : decode (hd ++ rest) = .truncated := by
  obtain ⟨hop, hres⟩ := (legal_iff_matchesRow _ o).mpr hm
  have hH := headerOf_append_eq rest h8
  obtain ⟨_, e⟩ | ⟨_, hno, _⟩ | ⟨_, _, _, _, _, e⟩ | ⟨o', _, hop', _, hp, _⟩ := decode_cases (hd ++ rest)
  · exact e
  · rw [hH] at hno
    exact absurd ⟨hop, hres⟩ (hno o)
  · exact e
  · rw [hH] at hop' hp
    obtain rfl : o = o' := Option.some.inj (hop.symm.trans hop')
    rw [List.length_append] at hp
    omega

/-- A legal header with at least as many bytes after it as it names is a command of just these bytes (R58). -/
theorem decode_long {hd rest : Bytes} {o : Op} (h8 : hd.length = 8) (hm : matchesRow o (headerOf hd))
    (hlong : payloadLength o (headerOf hd) ≤ rest.length) :
    decode (hd ++ rest) = .command (assemble o (headerOf hd) (rest.take (payloadLength o (headerOf hd))))
      (rest.drop (payloadLength o (headerOf hd))) := by
  obtain ⟨hop, hres⟩ := (legal_iff_matchesRow _ o).mpr hm
  have hdec := decode_header_payload (rest.drop (payloadLength o (headerOf hd))) h8 hop hres
    (List.length_take_of_le hlong)
  rwa [List.take_append_drop] at hdec

/-! ## The statements -/

/-- Settles O2: command by command, the fields of the encoded header and the operands of the encoded payload. -/
theorem decodeOfEncode : Obligations.DecodeOfEncode := by
  intro i rest wf
  cases i with
  | new v ln dlen tree key salt pers =>
    simp only [WellFormed, Instr.wellFormed, Bool.and_eq_true, decide_eq_true_eq, Option.all_eq_true] at wf
    obtain ⟨⟨⟨wtree, wkey⟩, wsalt⟩, wpers⟩ := wf
    have hnat {n : Nat} (h : n < 256) : n = (BitVec.ofNat 8 n).toNat := by
      rw [BitVec.toNat_ofNat, Nat.mod_eq_of_lt h]
    rw [encode, List.append_assoc]
    exact decode_new_operands ln dlen rest wtree (hnat wkey) (hnat wsalt) (hnat wpers)
  | update data =>
    rw [encode, List.append_assoc]
    exact decode_update rest (by simpa only [WellFormed, Instr.wellFormed, decide_eq_true_eq] using wf)
  | finalize =>
    exact decode_header_payload (hd := encodeHeader .finalize) (o := .finalize) (p := []) rest rfl (by decide)
      (by decide) rfl
  | compress v f ln h block t0 t1 =>
    have hblock : block.length = v.BS := by simpa only [WellFormed, Instr.wellFormed, decide_eq_true_eq] using wf
    have hstate := stateBytes_length h
    have hload : loadWords v 8 (wordsToBytes h.toList) = h :=
      loadWords_eq (by simpa using bytesToWords_wordsToBytes h.toList)
    rw [encode, encodeHeader_compress, encodePayload, List.append_assoc, decode_compress v f ln rest,
      compressOf_append f ln hstate hblock (wordToBytes_length t0) (wordToBytes_length t1), hload,
      bytesToWord_wordToBytes, bytesToWord_wordToBytes]
    simp only [List.length_append, hstate, hblock, wordToBytes_length]
    omega

/-- Settles O3: the bytes consumed are the encoding, and the operands have the lengths the header names. -/
theorem encodeOfDecode : Obligations.EncodeOfDecode := by
  intro s i rest hdec
  refine ⟨?_, encode_of_decode hdec⟩
  obtain ⟨_, e⟩ | ⟨_, _, _, e⟩ | ⟨_, _, _, _, _, e⟩ | ⟨o, _, _, _, hp, e⟩ := decode_cases s <;>
    rw [e] at hdec <;> cases hdec
  apply wellFormed_assemble
  rw [List.length_take, List.length_drop]
  omega

/-- Settles O4: each row is its format's fields, and the OP field tells the rows apart. -/
theorem legalHeaderIsTableRow : Obligations.LegalHeaderIsTableRow := by
  refine ⟨matchesRow_new, matchesRow_update, matchesRow_finalize, matchesRow_compress, legal_iff_matchesRow,
    fun H o o' h h' => ?_, fun H o hout h => ?_⟩
  · have hop := ((legal_iff_matchesRow H o).mpr h).1
    have hop' := ((legal_iff_matchesRow H o').mpr h').1
    exact Option.some.inj (hop.symm.trans hop')
  · have hop := (opOf_eq_some H o).mp ((legal_iff_matchesRow H o).mpr h).1
    cases o <;> simp only at hop <;> omega

/-- Settles O5: a header without a row, a row's header with too few bytes, one with enough; the lengths are those of
the fields. -/
theorem decodeConsumesWhatTheHeaderSays : Obligations.DecodeConsumesWhatTheHeaderSays := by
  intro hd rest h8
  refine ⟨decode_noRow rest h8, fun o hm => ⟨decode_short h8 hm, fun hlong => ⟨_, decode_long h8 hm hlong⟩⟩, ?_, rfl,
    rfl, ?_⟩
  · rw [payloadLength, bit10, variantField]
    cases (headerOf hd).getLsbD 8 <;> rfl
  · rw [payloadLength, variantField]
    cases (headerOf hd).getLsbD 8 <;> rfl

/-- Settles O51: the flags are NEW's flag byte, the listed fields of eight bits the bytes of the descriptor. -/
theorem newFromTheChannel : Obligations.NewFromTheChannel := by
  intro v ln dlen klen slen plen tree key salt pers rest hkey hsalt hpers hoff flags descriptor
  have hfits : ∀ t ∈ tree, t.fits v = true := by
    intro t ht
    rw [TreeFields.fits, decide_eq_true_eq]
    cases v with
    | B => exact t.nodeOffset.isLt
    | S => exact hoff t ht rfl
  have hdescriptor : descriptor = descriptorBytes v tree := by
    cases tree with
    | none => rfl
    | some t => cases v <;> simp only [descriptor, descriptorBytes, treeBytes, leBytes_toNat_eq_fields]
  have hflags : flags = flagByte (variantBit v) ln tree.isSome := by cases v <;> rfl
  have hdec := decode_new_operands ln dlen rest hfits hkey hsalt hpers
  rwa [newHeader, ← hflags, ← hdescriptor] at hdec

/-- Settles O52: the four bytes are those of LEN. -/
theorem updateFromTheChannel : Obligations.UpdateFromTheChannel := by
  intro len data rest hlen
  have hdec := decode_update rest (hlen.trans_lt len.isLt)
  rw [updateHeader, hlen, leBytes_toNat_eq_fields] at hdec
  exact hdec

end Sys2Proof
end

section
/-! SUPPORT. Proofs of the statements about the step and the channels, `StepRunsDecoded`, `CommandStreamRunsInOrder`,
`TruncatedCommandWaits`, `OnlyResetEndsTheWait`, `ResetInputHolds` and `ResetStateWaits`, with the laws they need: a
command does not read the command channel, a proper initial part of an encoding is no command, the held step and the
steps that wait. -/

namespace Sys2Proof

/-! ## The initial parts of an encoding -/

/-- Bytes that follow an illegal header leave it illegal (R57). -/
theorem decode_illegal_append {s rest : Bytes} {why : Illegal} (h : decode s = .illegal why rest) (q : Bytes) :
    ∃ why' rest', decode (s ++ q) = .illegal why' rest' := by
  have hno := (noRow_of_decode_illegal h).1
  have h8 : 8 ≤ s.length := by
    obtain ⟨_, e⟩ | ⟨h8, _⟩ | ⟨_, h8, _⟩ | ⟨_, h8, _⟩ := decode_cases s
    · rw [e] at h
      cases h
    · exact h8
    · exact h8
    · exact h8
  have ht : (s.take 8).length = 8 := List.length_take_of_le h8
  rw [← List.take_append_drop 8 s, headerOf_append_eq _ ht] at hno
  obtain ⟨why', e⟩ := decode_noRow (s.drop 8 ++ q) ht hno
  rw [← List.append_assoc, List.take_append_drop] at e
  exact ⟨why', _, e⟩

/-- A proper initial part of a command's encoding is no command and no illegal header (R31, R166). -/
theorem decode_proper_part {i : Instr} {p q : Bytes} (wf : WellFormed i) (h : encode i = p ++ q) (hq : q ≠ []) :
    decode p = .truncated := by
  have hwhole : decode (p ++ q) = .command i [] := by
    rw [← h, ← List.append_nil (encode i)]
    exact decodeOfEncode i [] wf
  cases hd : decode p with
  | truncated => rfl
  | illegal why rest =>
    obtain ⟨why', rest', hill⟩ := decode_illegal_append hd q
    rw [hwhole] at hill
    cases hill
  | command j rest =>
    obtain ⟨wfj, hj⟩ := encodeOfDecode p j rest hd
    have hlonger := decodeOfEncode j (rest ++ q) wfj
    rw [← List.append_assoc, hj, hwhole, Decoded.command.injEq] at hlonger
    exact absurd (List.append_eq_nil_iff.mp hlonger.2.symm).2 hq

end Sys2Proof

namespace Sys2Proof.Machine

/-! ## The held step and the steps that wait (R160, R161, R166) -/

/-- A step under an asserted reset input is a reset (R160). -/
theorem step_of_held {s : State} (hr : s.resetIn = true) : step s = .next s.holdReset := by
  simp [step, fetch, hr]

theorem step_of_empty {s : State} (hr : s.resetIn = false) (hc : s.cmd = []) : step s = .fault .awaitingCommand := by
  simp [step, fetch, hr, hc]

theorem step_of_truncated {s : State} (hr : s.resetIn = false) (hne : s.cmd ≠ []) (hd : decode s.cmd = .truncated) :
    step s = .fault .truncatedCommand := by
  simp [step, fetch, hr, hne, hd]

/-- A step that waits for the rest of a command has found its beginning on the channel. -/
theorem truncated_of_step {s : State} (h : step s = .fault .truncatedCommand) :
    s.cmd ≠ [] ∧ decode s.cmd = .truncated := by
  obtain ⟨_, e⟩ | ⟨_, _, e⟩ | ⟨_, hne, hd, _⟩ | ⟨_, _, _, _, e⟩ | ⟨i, rest, _, _, e⟩ := step_cases s
  · rw [e] at h
    cases h
  · rw [e] at h
    cases h
  · exact ⟨hne, hd⟩
  · rw [e] at h
    cases h
  · obtain ⟨t, e', -⟩ := exec_completes i { s with cmd := rest }
    rw [e, e'] at h
    cases h

/-! ## A stream of commands (R31, R40) -/

/-- A command neither reads nor writes the command channel. -/
theorem exec_withCmd {i : Instr} {s t : State} (c : Bytes) (h : exec i s = .next t) :
    exec i { s with cmd := c } = .next { t with cmd := c } := by
  cases i with
  | new v ln dlen tree key salt pers =>
    by_cases hin : ParametersInRange v dlen.toNat key.length salt.length pers.length
    · rw [exec_new_installs hin] at h
      cases h
      exact exec_new_installs hin ln tree _
    · rw [exec_new_refused hin] at h
      cases h
      exact exec_new_refused hin ln tree _
  | update data =>
    by_cases hp : s.phase = .absorbing
    · rw [exec_update_absorbs hp rfl] at h
      cases h
      exact exec_update_absorbs (s := { s with cmd := c }) hp rfl data
    · rw [exec_refused_outside (i := .update data) rfl hp] at h
      cases h
      exact exec_refused_outside (i := .update data) (s := { s with cmd := c }) rfl hp
  | finalize =>
    by_cases hp : s.phase = .absorbing
    · rw [exec_finalize_closes hp rfl] at h
      cases h
      exact exec_finalize_closes (s := { s with cmd := c }) hp rfl
    · rw [exec_refused_outside (i := .finalize) rfl hp] at h
      cases h
      exact exec_refused_outside (i := .finalize) (s := { s with cmd := c }) rfl hp
  | compress v f ln h0 block t0 t1 =>
    cases h
    rfl

/-- The first step of a run. -/
theorem run_of_step {M : Host.Core} {s t : M.State} (h : M.step s = .next t) (n : Nat) :
    M.run (n + 1) s = M.run n t := by
  rw [Host.Core.run, h]

end Sys2Proof.Machine

namespace Sys2Proof

open Machine

/-! ## The statements -/

/-- Settles O6: the step's equation for a decoded command. -/
theorem stepRunsDecoded : Obligations.StepRunsDecoded := fun _ _ _ hr hd => step_of_decode hr hd

/-- Settles O7: by induction on the commands; the head is decoded and executed, and leaves the rest on the channel. -/
theorem commandStreamRunsInOrder : Obligations.CommandStreamRunsInOrder := by
  intro is s wf hr hcmd
  induction is generalizing s with
  | nil =>
    obtain ⟨phase, ctx, cmd, rsp, resetIn⟩ := s
    cases hcmd
    rfl
  | cons i is ih =>
    have hdec : decode s.cmd = .command i (is.flatMap encode) := by
      rw [hcmd, List.flatMap_cons]
      exact decodeOfEncode i _ (wf i List.mem_cons_self)
    obtain ⟨t, hexec, -, hreset⟩ := exec_completes i s
    have hstep : step s = .next { t with cmd := is.flatMap encode } :=
      (step_of_decode hr hdec).trans (exec_withCmd (is.flatMap encode) hexec)
    have hrest := ih { t with cmd := is.flatMap encode } (fun j hj => wf j (List.mem_cons_of_mem i hj))
      (hreset.trans hr) rfl
    exact (run_of_step (M := Sys2Proof.core) hstep is.length).trans
      (hrest.trans (execAll_cons_next (exec_withCmd [] hexec) is).symm)

/-- Settles O8: what is there of the command decodes to nothing. -/
theorem truncatedCommandWaits : Obligations.TruncatedCommandWaits := by
  intro s i p q wf henc hq hr hcmd
  subst hcmd
  split
  · next hnil => exact step_of_empty hr hnil
  · next hne => exact step_of_truncated hr hne (decode_proper_part wf henc hq)

/-- Settles O53: too few bytes are still truncated, enough are a command of just these bytes; only an emptied channel
ends the wait, and a flush empties it under an asserted reset alone. -/
theorem onlyResetEndsTheWait : Obligations.OnlyResetEndsTheWait := by
  refine ⟨fun s o hd p bytes hr hcmd h8 hm _ => ?_, fun s hr hstep => ?_⟩
  · have hsent : (s.hostSend bytes).cmd = hd ++ (p ++ bytes) := by rw [hostSend_cmd, hcmd, List.append_assoc]
    refine ⟨fun hshort => ?_, fun hlong => ?_⟩
    · apply step_of_truncated (s := s.hostSend bytes) hr
      · rw [hsent]
        exact List.append_ne_nil_of_left_ne_nil (List.ne_nil_of_length_eq_add_one h8) _
      · rw [hsent]
        exact decode_short h8 hm (by rwa [List.length_append])
    · have hdec := decode_long (rest := p ++ bytes) h8 hm (by rwa [List.length_append])
      refine ⟨_, ?_, step_of_decode (s := s.hostSend bytes) hr (by rw [hsent, hdec])⟩
      apply List.append_cancel_right (bs := (p ++ bytes).drop (payloadLength o (headerOf hd)))
      rw [encode_of_decode hdec, List.append_assoc, List.take_append_drop]
  · obtain ⟨hne, hd⟩ := truncated_of_step hstep
    have hrelease : s.hostAssertReset.hostReleaseReset = { s.hostAssertReset.holdReset with resetIn := false } :=
      hostReleaseReset_asserted _ rfl
    have hflush : s.hostAssertReset.hostFlush.hostReleaseReset =
        { s.hostAssertReset.holdReset with cmd := [], resetIn := false } := by
      rw [hostFlush_asserted _ rfl, hostReleaseReset_asserted _ rfl]
      rfl
    rw [hrelease, hflush]
    exact ⟨hostFlush_released s hr, hostReleaseReset_released s hr, fun n => step_of_truncated hr hne hd,
      step_of_truncated rfl hne hd, rfl, rfl, step_of_empty rfl rfl⟩

/-- Settles O10: the held reset and the release write only what they name. -/
theorem resetInputHolds : Obligations.ResetInputHolds := by
  intro s hr
  rw [hostReleaseReset_asserted s hr]
  exact ⟨⟨_, step_of_held hr, rfl, rfl, rfl, hr⟩, rfl, rfl, rfl, rfl⟩

/-- Settles O11: the reset state's channel is empty. -/
theorem resetStateWaits : Obligations.ResetStateWaits := ⟨rfl, rfl, rfl, step_of_empty rfl rfl⟩

end Sys2Proof
end

section
/-! SUPPORT. Proofs of the statements about the tables and the passes of the compression function,
`PassOrderIsIrrelevant`, `InitialStateIsIvXorP`, `ConstantTables` and `CompressKnownAnswer`, with the law they need: an
application of G reads and writes its own four words only, so that two on different words may be exchanged. -/

namespace Sys2Proof.Machine

variable {v : Variant}

/-! ## Working vectors that agree on some words -/

/-- Two working vectors hold the same words at the indices of `S`. -/
def AgreeOn (S : List (Fin 16)) (w u : Vector (Word v) 16) : Prop := ∀ k ∈ S, w[k] = u[k]

theorem agreeOn_set {S : List (Fin 16)} {w u : Vector (Word v) 16} (h : AgreeOn S w u) (i : Fin 16) {x y : Word v}
    (hxy : x = y) : AgreeOn S (w.set i x) (u.set i y) := by
  intro k hk
  rw [getElem_setWord, getElem_setWord, hxy, h k hk]

section
variable {w u : Vector (Word v) 16} {a b c d : Fin 16}

/-- Half of G computes the words it writes from its four words only (R104). -/
theorem mixHalf_agreeOn (h : AgreeOn [a, b, c, d] w u) (x : Word v) (r r' : Nat) :
    AgreeOn [a, b, c, d] (mixHalf w a b c d x r r') (mixHalf u a b c d x r r') := by
  have hmem : a ∈ [a, b, c, d] ∧ b ∈ [a, b, c, d] ∧ c ∈ [a, b, c, d] ∧ d ∈ [a, b, c, d] := by simp
  obtain ⟨ha, hb, hc, hd⟩ := hmem
  have h1 := agreeOn_set h a (x := wadd (wadd w[a] w[b]) x) (y := wadd (wadd u[a] u[b]) x) (by rw [h a ha, h b hb])
  have h2 := agreeOn_set h1 d (congrArg (rotr · r) (congrArg₂ wxor (h1 d hd) (h1 a ha)))
  have h3 := agreeOn_set h2 c (congrArg₂ wadd (h2 c hc) (h2 d hd))
  exact agreeOn_set h3 b (congrArg (rotr · r') (congrArg₂ wxor (h3 b hb) (h3 c hc)))

theorem mixG_agreeOn (h : AgreeOn [a, b, c, d] w u) (x y : Word v) :
    AgreeOn [a, b, c, d] (mixG v w a b c d x y) (mixG v u a b c d x y) := by
  rw [mixG_eq_halves, mixG_eq_halves]
  exact mixHalf_agreeOn (mixHalf_agreeOn h _ _ _) _ _ _

end

/-! ## Exchanging applications of G (R111) -/

/-- The working words of an application of G. -/
def GStep.words (g : GStep) : List (Fin 16) := [g.a, g.b, g.c, g.d]

section
variable (m w : Vector (Word v) 16) {g g' : GStep}

theorem applyG_other {k : Fin 16} (hk : k ∉ g.words) : (applyG v m w g)[k] = w[k] := by
  simp only [GStep.words, List.mem_cons, List.not_mem_nil, or_false, not_or] at hk
  obtain ⟨ha, hb, hc, hd⟩ := hk
  exact mixG_other w _ _ ha hb hc hd

/-- An application on other words, made before, does not change what one writes. -/
theorem applyG_after {k : Fin 16} (hdisj : List.Disjoint g.words g'.words) (hk : k ∈ g.words) :
    (applyG v m (applyG v m w g') g)[k] = (applyG v m w g)[k] :=
  mixG_agreeOn (fun _ hj => applyG_other m w (hdisj hj)) _ _ k hk

/-- Two applications of G on different words may be exchanged (R111). -/
theorem applyG_comm (hdisj : List.Disjoint g.words g'.words) :
    applyG v m (applyG v m w g) g' = applyG v m (applyG v m w g') g := by
  apply Vector.ext
  intro i hi
  have hword (k : Fin 16) : (applyG v m (applyG v m w g) g')[k] = (applyG v m (applyG v m w g') g)[k] := by
    by_cases hk : k ∈ g.words
    · rw [applyG_after m w hdisj hk, applyG_other m _ (hdisj hk)]
    · rw [applyG_other m (applyG v m w g') hk]
      by_cases hk' : k ∈ g'.words
      · exact applyG_after m w hdisj.symm hk'
      · rw [applyG_other m _ hk', applyG_other m _ hk, applyG_other m _ hk']
  exact hword ⟨i, hi⟩

end

/-- Applications of G on pairwise different words may be made in any order (R111). -/
theorem foldl_applyG_perm {l pass : List GStep} (hpass : pass.Pairwise fun g g' => List.Disjoint g.words g'.words)
    (hl : l.Perm pass) (m w : Vector (Word v) 16) : l.foldl (applyG v m) w = pass.foldl (applyG v m) w := by
  have hcomm : pass.Pairwise fun g g' => ∀ u, applyG v m (applyG v m u g) g' = applyG v m (applyG v m u g') g :=
    hpass.imp fun hdisj u => applyG_comm m u hdisj
  have hall := hcomm.forall_of_forall_of_flip (fun _ _ _ => rfl) (hcomm.imp fun h u => (h u).symm)
  exact (hl.symm.foldl_eq' (fun _ hg _ hg' => hall hg hg') w).symm

theorem columnPass_disjoint (s : Vector (Fin 16) 16) :
    (columnPass s).Pairwise fun g g' => List.Disjoint g.words g'.words := by
  simp [columnPass, GStep.words]

theorem diagonalPass_disjoint (s : Vector (Fin 16) 16) :
    (diagonalPass s).Pairwise fun g g' => List.Disjoint g.words g'.words := by
  simp [diagonalPass, GStep.words]

/-! ## The tables -/

theorem initialState_getElem (P : Bytes) (i : Fin 8) : (initialState v P)[i] = (iv v)[i] ^^^ (paramWords v P)[i] := by
  fin_cases i <;> rfl

/-- A round's row depends on the round's number modulo 10 (R103). -/
theorem sigmaRow_of_mod {r : Nat} {i : Fin 10} (h : r % 10 = i.val) : sigmaRow r = sigma[i] := by
  simp only [sigmaRow, h, Fin.getElem_fin]

/-- One round is eight applications of G, so `n` rounds are `8 * n` (R110). -/
theorem roundSteps_count (n : Nat) : ((List.range n).flatMap roundSteps).length = 8 * n := by
  have hround (r : Nat) : (roundSteps r).length = 8 := rfl
  simp [List.length_flatMap, hround, Nat.mul_comm]

end Sys2Proof.Machine

namespace Sys2Proof

open Machine

/-! ## The statements -/

/-- Settles O23: the four applications of a pass work on different words. -/
theorem passOrderIsIrrelevant : Obligations.PassOrderIsIrrelevant := fun _ m w s _ =>
  ⟨fun hl => foldl_applyG_perm (columnPass_disjoint s) hl m w,
    fun hl => foldl_applyG_perm (diagonalPass_disjoint s) hl m w⟩

/-- Settles O20: word by word; the examples are evaluated. -/
theorem initialStateIsIvXorP : Obligations.InitialStateIsIvXorP :=
  ⟨fun _ => initialState_getElem, by decide, by decide⟩

/-- Settles O24: the tables are compared entry by entry; the row and the number of applications are those of any
round. -/
theorem constantTables : Obligations.ConstantTables :=
  ⟨by decide, by decide, fun _ _ => sigmaRow_of_mod, sigmaRow_of_mod (i := 0) rfl, sigmaRow_of_mod (i := 1) rfl,
    roundSteps_count _, roundSteps_count _⟩

/-- Settles O26: both compressions are evaluated. -/
theorem compressKnownAnswer : Obligations.CompressKnownAnswer := by
  refine ⟨?_, ?_⟩ <;> decide +kernel

end Sys2Proof
end

section
/-! SUPPORT. Proofs of the statements about the buffer, UPDATE and the digest, `BufferReadAfterWrite`,
`UpdateWithinBlock`, `UpdateOnFullBuffer`, `UpdateAbsorbsOrRefuses`, `ChunkingInvariance`, `DigestHasOutlenBytes` and
`AbsorbedBytesAreCounted`, with the laws they need: a MemRead of what a MemWrite stored, a byte of data that fits the
buffer, and the counter and `buflen` of absorbed data. -/

namespace Sys2Proof.Machine

variable {v : Variant}

/-! ## The buffer (R33) -/

/-- A MemRead gives what the MemWrite before it stored. -/
theorem memRead_memWrite (r : Regs v) (k : Nat) (s : Bytes) : (r.memWrite k s).memRead k s.length = s := by
  apply List.ext_getElem (memRead_length _ _ _)
  intro j h1 h2
  rw [memRead_getElem, readByte_memWrite, dif_pos (by omega)]
  simp only [Nat.add_sub_cancel_left]

theorem readByte_memWrite_other (r : Regs v) (k : Nat) (s : Bytes) {a : Nat} (ha : ¬(k ≤ a ∧ a < k + s.length)) :
    (r.memWrite k s).readByte a = r.readByte a := by
  rw [readByte_memWrite, dif_neg ha]

/-! ## Data that fits the buffer (R125) -/

/-- Data that fits is stored as one MemWrite stores it. -/
theorem readByte_absorb_fits (r : Regs v) (s : Bytes) (h : r.buflen.val + s.length ≤ v.BS) (a : Nat) :
    (r.absorb s).readByte a = (r.memWrite r.buflen s).readByte a := by
  obtain ⟨-, -, -, -, hbuf⟩ := absorb_fits r s h
  obtain ⟨-, -, hepoch⟩ := absorb_keeps r s
  rw [Regs.readByte, Regs.readByte, hbuf, hepoch, memWrite_buf, memWrite_epoch]

/-! ## The counter and `buflen` of absorbed data (R25) -/

section
variable {c : Nat} {h0 : Vector (Word v) 8} {D : Bytes} {r : Regs v} {n : Nat} (a : Absorbed c h0 D r n)
include a

theorem absorbed_buflen_eq : r.buflen.val = D.length - v.BS * n := by
  have hlen := a.len
  omega

/-- The buffer is empty exactly when nothing has been absorbed. -/
theorem absorbed_buflen_zero : r.buflen.val = 0 ↔ D.length = 0 := by
  have hlen := a.len
  constructor
  · intro hz
    have hn : n = 0 := by
      have hpos := a.pos
      omega
    rw [hn] at hlen
    omega
  · omega

end

end Sys2Proof.Machine

namespace Sys2Proof

open Machine

/-! ## The statements -/

/-- Settles O27: the byte read is the byte stored; the buffer is the only register written. -/
theorem bufferReadAfterWrite : Obligations.BufferReadAfterWrite := fun _ r k s =>
  ⟨memRead_memWrite r k s, fun _ => readByte_memWrite_other r k s, rfl⟩

/-- Settles O31: data that fits is one MemWrite at `buflen`, and nothing is compressed. -/
theorem updateWithinBlock : Obligations.UpdateWithinBlock := by
  intro v r data s hp hc hfit
  obtain ⟨hh, h0, h1, hlen, -⟩ := absorb_fits r data hfit
  obtain ⟨hout, hlast, -⟩ := absorb_keeps r data
  refine ⟨_, r.absorb data, exec_update_absorbs hp hc data, rfl, rfl, rfl, rfl, ?_, hh, h0, h1, hout, hlast, hlen,
    fun k hk => ?_, fun a ha => ?_⟩
  · rw [respond_rsp, responseBytes_nil]; rfl
  · rw [readByte_absorb_fits r data hfit, readByte_memWrite, dif_pos (by omega)]
    simp only [Nat.add_sub_cancel_left]
  · rw [readByte_absorb_fits r data hfit, readByte_memWrite_other r _ data ha]

/-- Settles O32: the byte is pushed on the registers that the flush of the full buffer leaves. -/
theorem updateOnFullBuffer : Obligations.UpdateOnFullBuffer := by
  intro v r b s hp hc hfull
  have hexec := exec_update_absorbs hp hc [b]
  rw [absorb_cons, absorbByte_full r b hfull, absorb_nil] at hexec
  refine ⟨_, _, hexec, rfl, rfl, rfl, rfl, ?_, ?_, rfl, rfl, ?_, fun a ha => ?_, rfl, rfl⟩
  · rw [respond_rsp, responseBytes_nil]; rfl
  · rw [push_counter, flush_counter, counterAdd_counter]
  · exact (readByte_push r.flush b (flush_room r) 0).trans (if_pos rfl)
  · exact (readByte_push r.flush b (flush_room r) a).trans (if_neg ha)

/-- Settles O33: what `Absorbed` says of the held bytes followed by the data, and where absorb stores. -/
theorem updateAbsorbsOrRefuses : Obligations.UpdateAbsorbsOrRefuses := by
  intro v r data s hc
  refine ⟨fun hp => ?_, fun hp => ?_⟩
  · obtain ⟨hout, hlast, -⟩ := absorb_keeps r data
    refine ⟨_, r.absorb data, exec_update_absorbs hp hc data, rfl, rfl, rfl, rfl, ?_, hout, hlast, ?_, fun _ => ?_⟩
    · rw [respond_rsp, responseBytes_nil]; rfl
    · rintro rfl
      rfl
    · intro n D
      obtain ⟨n', habs⟩ := absorbed_absorb (absorbed_held r) data
      have hD : D.length = r.buflen.val + data.length := by rw [List.length_append, memRead_length]
      obtain rfl : n' = n := by rw [absorbed_blocks habs, List.length_append, memRead_length]
      exact ⟨habs.counter, habs.state, hD ▸ absorbed_buflen_eq habs, habs.held, absorb_stored r data,
        absorb_frame r data⟩
  · rw [exec_refused_outside (i := .update data) rfl hp, raise_eq]
    rfl

/-- Settles O34: both leave the registers that absorb all the data, and FINALIZE reads nothing else. -/
theorem chunkingInvariance : Obligations.ChunkingInvariance := by
  intro chunks s hp
  obtain ⟨t, hrun, hphase, hctx⟩ := execAll_updates_absorb hp rfl chunks
  refine ⟨t, _, _, _, (s.ctx.regs.absorb chunks.flatten).close.digest, hrun, exec_update_absorbs hp rfl chunks.flatten,
    hctx, hphase.trans hp.symm, exec_finalize_closes hphase hctx, exec_finalize_closes hp rfl, ?_, ?_⟩
  · rw [respond_rsp, responseBytes_digest]
  · rw [respond_rsp, responseBytes_digest]

/-- Settles O36: the serialized state has OUTMAX bytes, and the invariant bounds `outlen` by it. -/
theorem digestHasOutlenBytes : Obligations.DigestHasOutlenBytes := by
  intro s hinv hp
  obtain ⟨hpos, hmax, -⟩ := hinv.2 hp
  have hlen : s.ctx.regs.close.digest.length = s.ctx.regs.outlen.toNat := by
    have hbytes : 8 * s.ctx.variant.WB = s.ctx.variant.OUTMAX := by cases s.ctx.variant <;> rfl
    rw [Regs.digest, List.length_take, stateBytes_length, hbytes, close_outlen, Nat.min_eq_left hmax]
  exact ⟨_, _, exec_finalize_closes hp rfl, by rw [respond_rsp, responseBytes_digest], hlen, hlen ▸ hpos, hlen ▸ hmax⟩

/-- Settles O49: the key block and the data are absorbed; all their blocks but the last are compressed. -/
theorem absorbedBytesAreCounted : Obligations.AbsorbedBytesAreCounted := by
  intro v ln dlen tree key salt pers chunks s h n
  obtain ⟨t, hrun, hphase, hctx⟩ := execAll_new_updates h ln tree chunks s
  obtain ⟨m, habs⟩ := newRegs_absorbed (v := v) ln tree (s.ctx.regs.epoch + 1) dlen key salt pers chunks.flatten
  obtain ⟨-, -, -, hk⟩ := inRange_bounds v h
  have hn : (keyBlock v key ++ chunks.flatten).length = n := by rw [List.length_append, keyBlock_length v key hk]
  have hcount := habs.counter
  rw [Nat.zero_add] at hcount
  refine ⟨t, _, hrun, hctx, hphase, ?_, hn ▸ absorbed_buflen_zero habs, fun hlt => ?_⟩
  · rw [hcount, absorbed_blocks habs, hn]
  · have hlen := habs.len
    rw [hcount, Nat.mod_eq_of_lt (by omega)]
    omega

end Sys2Proof
end

section
/-! SUPPORT. Proofs of the statements about the whole machine, the invariant and the unspecified values,
`OneResponsePerCommand`, `CompressAnswers`, `PhaseTransitions`, `OnlyNewWritesParameters`, `OnlyNewRevives`,
`StepKeepsInvariant`, `ResetMeetsInvariant` and `UnspecifiedIsNeverSeen`, with the laws they need: every command sends
one response, absorb keeps a hasher live, and on registers that agree absorb and the close do the same. -/

namespace Sys2Proof.Machine

variable {v : Variant}

/-! ## One response for each command (R32, R55) -/

/-- Every command sends one response, of at most 64 payload bytes and none with an error. -/
theorem exec_responds (i : Instr) (s : State) :
    ∃ t st p, exec i s = .next t ∧ t.rsp = s.rsp ++ responseBytes st p ∧ p.length ≤ 64 ∧ (st ≠ .ok → p = []) := by
  obtain ⟨_, _, _, _, _, _, _, _, _, hexec⟩ | ⟨_, _, _, _, _, _, _, _, _, hexec⟩ | ⟨_, _, _, hexec⟩ |
    ⟨_, _, hexec⟩ | ⟨_, _, hexec⟩ | ⟨_, _, _, _, _, _, _, _, hexec⟩ := exec_cases i s
  · exact ⟨_, .ok, [], hexec, rfl, by simp, fun _ => rfl⟩
  · exact ⟨_, .invalidParameter, [], hexec, rfl, by simp, fun _ => rfl⟩
  · exact ⟨_, .ok, [], hexec, rfl, by simp, fun _ => rfl⟩
  · exact ⟨_, .ok, _, hexec, rfl, digest_length_le _, fun h => absurd rfl h⟩
  · exact ⟨_, .invalidState, [], hexec, rfl, by simp, fun _ => rfl⟩
  · exact ⟨_, .ok, _, hexec, rfl, stateBytes_le _, fun h => absurd rfl h⟩

/-- The response without payload, as the statements write it. -/
theorem responseBytes_empty (st : Status) : responseBytes st [] = responseOf st.code [] :=
  responseBytes_eq st [] (by decide)

/-! ## Commands other than NEW (R24, R146) -/

/-- Outside ABSORBING no command but NEW changes the context or `PHASE`. -/
theorem exec_outside {i : Instr} {s : State} (hi : isNew i = false) (hp : s.phase ≠ .absorbing) :
    ∃ t, exec i s = .next t ∧ t.ctx = s.ctx ∧ t.phase = s.phase := by
  cases i with
  | new => cases hi
  | update data => exact ⟨_, exec_refused_outside rfl hp, rfl, rfl⟩
  | finalize => exact ⟨_, exec_refused_outside rfl hp, rfl, rfl⟩
  | compress v f ln h block t0 t1 => exact ⟨_, exec_compress v f ln h block t0 t1 s, rfl, rfl⟩

/-! ## A live hasher (R16, R17, R25) -/

/-- One more byte keeps a hasher live, if what is below `buflen` has been written and the counter counts blocks. -/
theorem push_live {r : Regs v} (b : Byte) (room : r.buflen.val < v.BS)
    (hout : 1 ≤ r.outlen.toNat ∧ r.outlen.toNat ≤ v.OUTMAX)
    (hwritten : ∀ k, k < r.buflen.val → (r.buf.read? k).isSome = true) (hcount : r.counter % v.BS = 0) :
    (r.push b room).live := by
  refine ⟨hout.1, hout.2, fun k hk => ?_, hcount, fun h => by simp at h⟩
  rw [push_buf, read?_write]
  split
  · rfl
  · rw [push_buflen] at hk
    exact hwritten k (by omega)

theorem absorbByte_live {r : Regs v} (h : r.live) (b : Byte) : (r.absorbByte b).live := by
  obtain ⟨hpos, hmax, hwritten, hcount, -⟩ := h
  obtain ⟨room, e⟩ | ⟨_, e⟩ := absorbByte_cases r b <;> rw [e]
  · exact push_live b room ⟨hpos, hmax⟩ hwritten hcount
  · apply push_live b (flush_room r) ⟨hpos, hmax⟩
    · intro k hk
      exact absurd hk (Nat.not_lt_zero k)
    · rw [flush_counter, counterAdd_counter, Nat.mod_mod_of_dvd _ (BS_dvd v), Nat.add_mod_right, hcount]

theorem absorb_live {r : Regs v} (h : r.live) (s : Bytes) : (r.absorb s).live := by
  induction s generalizing r with
  | nil => exact h
  | cons b s ih => exact ih (absorbByte_live h b)

section
variable (ln : Bool) {dlen : Byte} (tree : Option TreeFields) {key salt pers : Bytes}

theorem fresh_live (h : ParametersInRange v dlen.toNat key.length salt.length pers.length) (P : Bytes) (epoch : Nat) :
    (Regs.fresh v ln dlen P epoch).live := by
  obtain ⟨hpos, hmax, hlt, -⟩ := inRange_bounds v h
  have hout : (Regs.fresh v ln dlen P epoch).outlen.toNat = dlen.toNat := by
    rw [Regs.fresh, BitVec.toNat_setWidth, Nat.mod_eq_of_lt hlt]
  have hcount : (Regs.fresh v ln dlen P epoch).counter = 0 := by simp [Regs.counter, Regs.fresh]
  exact ⟨hout ▸ hpos, hout ▸ hmax, fun k hk => absurd hk (Nat.not_lt_zero k), by rw [hcount, Nat.zero_mod],
    fun _ => hcount⟩

/-- NEW starts a live hasher (R123). -/
theorem newRegs_live (h : ParametersInRange v dlen.toNat key.length salt.length pers.length) (epoch : Nat) :
    (newRegs v ln dlen tree key salt pers epoch).live :=
  absorb_live (fresh_live ln h _ epoch) (keyBlock v key)

end

/-- Every command keeps the invariant. -/
theorem exec_keeps_inv {i : Instr} {s t : State} (hinv : s.Inv) (hexec : exec i s = .next t) : t.Inv := by
  obtain ⟨hwf, hlive⟩ := hinv
  obtain ⟨_, _, _, _, _, _, _, _, hin, e⟩ | ⟨_, _, _, _, _, _, _, _, _, e⟩ | ⟨data, _, hp, e⟩ |
    ⟨_, _, e⟩ | ⟨_, _, e⟩ | ⟨_, _, _, _, _, _, _, _, e⟩ := exec_cases i s <;>
    rw [e] at hexec <;> cases hexec
  · exact ⟨absorb_wf _ _ (wf_nil _), fun _ => newRegs_live _ _ hin _⟩
  · exact ⟨hwf, hlive⟩
  · exact ⟨absorb_wf _ data hwf, fun _ => absorb_live (hlive hp) data⟩
  · exact ⟨close_wf _ hwf, fun h => by cases h⟩
  · exact ⟨hwf, hlive⟩
  · exact ⟨hwf, hlive⟩

/-! ## Registers that agree (R16) -/

section
variable {r q : Regs v}

/-- The held bytes are the same in both, once every one of them has been written. -/
theorem memRead_agree (h : r.Agree q) (hlive : r.live) : r.memRead 0 r.buflen.val = q.memRead 0 q.buflen.val := by
  obtain ⟨-, -, -, hlen, -, -, hbuf⟩ := h
  obtain ⟨-, -, hwritten, -⟩ := hlive
  rw [Regs.memRead, Regs.memRead, ← hlen]
  apply List.map_congr_left
  intro j hj
  have hj := List.mem_range.mp hj
  obtain ⟨b, hb⟩ := Option.isSome_iff_exists.mp (hwritten j hj)
  have hb' := hbuf j hj
  rw [Nat.zero_add, Regs.readByte, Regs.readByte, ← hb', hb]
  rfl

theorem counter_agree (h : r.Agree q) : r.counter = q.counter := by
  obtain ⟨-, h0, h1, -⟩ := h
  rw [Regs.counter, Regs.counter, h0, h1]

theorem counterAdd_agree (h : r.Agree q) (n : Nat) :
    (r.counterAdd n).t0 = (q.counterAdd n).t0 ∧ (r.counterAdd n).t1 = (q.counterAdd n).t1 := by
  simp only [Regs.counterAdd, counter_agree h, and_self]

theorem push_agree (h : r.Agree q) (b : Byte) (room : r.buflen.val < v.BS) (room' : q.buflen.val < v.BS) :
    (r.push b room).Agree (q.push b room') := by
  obtain ⟨hh, h0, h1, hlen, hout, hlast, hbuf⟩ := h
  refine ⟨hh, h0, h1, Fin.ext (by rw [push_buflen, push_buflen, hlen]), hout, hlast, fun k hk => ?_⟩
  rw [push_buf, push_buf, read?_write, read?_write, ← hlen]
  split
  · rfl
  · rw [push_buflen] at hk
    exact hbuf k (by omega)

/-- The flush of two full buffers that agree: their held bytes are the whole buffers. -/
theorem flush_agree (h : r.Agree q) (hlive : r.live) (full : r.buflen.val = v.BS) : r.flush.Agree q.flush := by
  have hblock := memRead_agree h hlive
  obtain ⟨h0, h1⟩ := counterAdd_agree h v.BS
  obtain ⟨hh, -, -, hlen, hout, hlast, -⟩ := h
  rw [← hlen, full] at hblock
  refine ⟨?_, h0, h1, rfl, hout, hlast, fun k hk => absurd hk (Nat.not_lt_zero k)⟩
  rw [flush_h, flush_h, hh, hblock, h0, h1]

theorem absorbByte_agree (h : r.Agree q) (hlive : r.live) (b : Byte) : (r.absorbByte b).Agree (q.absorbByte b) := by
  have hlen : r.buflen.val = q.buflen.val := by
    obtain ⟨-, -, -, hlen, -⟩ := h
    rw [hlen]
  obtain ⟨room, e⟩ | ⟨full, e⟩ := absorbByte_cases r b <;> rw [e]
  · rw [absorbByte_room q b (hlen ▸ room)]
    exact push_agree h b room _
  · rw [absorbByte_full q b (hlen ▸ full)]
    exact push_agree (flush_agree h hlive full) b _ _

theorem absorb_agree (h : r.Agree q) (hlive : r.live) (s : Bytes) : (r.absorb s).Agree (q.absorb s) := by
  induction s generalizing r q with
  | nil => exact h
  | cons b s ih => exact ih (absorbByte_agree h hlive b) (absorbByte_live hlive b)

/-- The digest reads of the buffer only the held bytes: the padding overwrites the others (R126). -/
theorem close_digest_agree (h : r.Agree q) (hlive : r.live) : r.close.digest = q.close.digest := by
  have hheld := memRead_agree h hlive
  obtain ⟨h0, h1⟩ := counterAdd_agree h r.buflen
  obtain ⟨hh, -, -, hlen, hout, hlast, -⟩ := h
  rw [hlen] at hheld h0 h1
  rw [Regs.digest, Regs.digest, close_h, close_h, memRead_pad, memRead_pad, close_outlen, close_outlen, hlen, hheld, hh,
    h0, h1, hout, hlast]

end

/-- Two hashers just started differ in their epoch only. -/
theorem fresh_agree (v : Variant) (ln : Bool) (dlen : Byte) (P : Bytes) (epoch epoch' : Nat) :
    (Regs.fresh v ln dlen P epoch).Agree (Regs.fresh v ln dlen P epoch') :=
  ⟨rfl, rfl, rfl, rfl, rfl, rfl, fun _ _ => rfl⟩

/-- Two NEWs with the same operands leave registers that agree, whatever `buf` read as before. -/
theorem newRegs_agree {dlen : Byte} {key salt pers : Bytes}
    (h : ParametersInRange v dlen.toNat key.length salt.length pers.length) (ln : Bool) (tree : Option TreeFields)
    (epoch epoch' : Nat) :
    (newRegs v ln dlen tree key salt pers epoch).Agree (newRegs v ln dlen tree key salt pers epoch') :=
  absorb_agree (fresh_agree v ln dlen _ epoch epoch') (fresh_live ln h _ epoch) (keyBlock v key)

/-! ## Steps from states that agree (R16, R23) -/

theorem respond_agree {s t : State} (h : s.Agree t) (st : Status) (p : Bytes) :
    (s.respond st p).Agree (t.respond st p) := by
  obtain ⟨hphase, hcmd, hrsp, hreset, hctx⟩ := h
  exact ⟨hphase, hcmd, by rw [respond_rsp, respond_rsp, hrsp], hreset, hctx⟩

/-- Two hashers in progress that agree, with their registers named. -/
theorem agree_regs {s t : State} (hinv : s.Inv) (h : s.Agree t) (hp : s.phase = .absorbing) :
    ∃ (v : Variant) (r q : Regs v), s.ctx = ⟨v, r⟩ ∧ t.ctx = ⟨v, q⟩ ∧ r.Agree q ∧ r.live ∧ t.phase = .absorbing := by
  obtain ⟨hphase, -, -, -, hctx⟩ := h
  obtain ⟨v, r, q, hs, ht, hrq⟩ := hctx hp
  have hlive := hinv.2 hp
  rw [hs] at hlive
  exact ⟨v, r, q, hs, ht, hrq, hlive, hphase ▸ hp⟩

/-- A command gives the same kind of result from two states that agree, and its next states agree. -/
theorem exec_agree (i : Instr) {s t : State} (hinv : s.Inv) (h : s.Agree t) : Result.Agree (exec i s) (exec i t) := by
  have hagree := h
  obtain ⟨hphase, hcmd, hrsp, hreset, -⟩ := hagree
  cases i with
  | new v ln dlen tree key salt pers =>
    by_cases hin : ParametersInRange v dlen.toNat key.length salt.length pers.length
    · rw [exec_new_installs hin, exec_new_installs hin]
      apply respond_agree
      exact ⟨rfl, hcmd, hrsp, hreset, fun _ => ⟨v, _, _, rfl, rfl, newRegs_agree hin ln tree _ _⟩⟩
    · rw [exec_new_refused hin, exec_new_refused hin]
      exact respond_agree h _ _
  | update data =>
    by_cases hp : s.phase = .absorbing
    · obtain ⟨v, r, q, hs, ht, hrq, hlive, hp'⟩ := agree_regs hinv h hp
      rw [exec_update_absorbs hp hs, exec_update_absorbs hp' ht]
      apply respond_agree
      exact ⟨hphase, hcmd, hrsp, hreset, fun _ => ⟨v, _, _, rfl, rfl, absorb_agree hrq hlive data⟩⟩
    · rw [exec_refused_outside (i := .update data) rfl hp, exec_refused_outside (i := .update data) rfl (hphase ▸ hp)]
      exact respond_agree h _ _
  | finalize =>
    by_cases hp : s.phase = .absorbing
    · obtain ⟨v, r, q, hs, ht, hrq, hlive, hp'⟩ := agree_regs hinv h hp
      rw [exec_finalize_closes hp hs, exec_finalize_closes hp' ht, close_digest_agree hrq hlive]
      apply respond_agree
      exact ⟨rfl, hcmd, hrsp, hreset, fun hfin => by cases hfin⟩
    · rw [exec_refused_outside (i := .finalize) rfl hp, exec_refused_outside (i := .finalize) rfl (hphase ▸ hp)]
      exact respond_agree h _ _
  | compress v f ln h0 block t0 t1 => exact respond_agree h .ok _

/-- Two states that agree still agree once the same bytes have been taken from their command channels. -/
theorem agree_withCmd {s t : State} (h : s.Agree t) (c : Bytes) :
    State.Agree { s with cmd := c } { t with cmd := c } := by
  obtain ⟨hphase, -, hrsp, hreset, hctx⟩ := h
  exact ⟨hphase, rfl, hrsp, hreset, hctx⟩

end Sys2Proof.Machine

namespace Sys2Proof

open Machine

/-! ## The statements -/

/-- Settles O45: a held reset leaves no hasher in progress, an error changes no register, and every command keeps the
invariant. -/
theorem stepKeepsInvariant : Obligations.StepKeepsInvariant := by
  intro s t hinv hstep
  obtain ⟨_, e⟩ | ⟨_, _, e⟩ | ⟨_, _, _, e⟩ | ⟨_, _, _, _, e⟩ | ⟨i, rest, _, _, e⟩ := step_cases s <;> rw [e] at hstep
  · cases hstep
    exact ⟨wf_nil _, fun h => by cases h⟩
  · cases hstep
  · cases hstep
  · cases hstep
    exact hinv
  · exact exec_keeps_inv (s := { s with cmd := rest }) hinv hstep

/-- Settles O47: the channels and the reset input are equal, so both steps are about the same thing, and a command
gives results that agree. -/
theorem unspecifiedIsNeverSeen : Obligations.UnspecifiedIsNeverSeen := by
  intro s t hinv h
  have hagree := h
  obtain ⟨hphase, hcmd, hrsp, hreset, -⟩ := hagree
  obtain ⟨hr, e⟩ | ⟨hr, hc, e⟩ | ⟨hr, hne, hd, e⟩ | ⟨why, rest, hr, hd, e⟩ | ⟨i, rest, hr, hd, e⟩ := step_cases s <;>
    rw [e] <;> rw [hreset] at hr
  · rw [step_of_held hr]
    exact ⟨rfl, hcmd, hrsp, hreset, fun hidle => by cases hidle⟩
  · rw [step_of_empty hr (hcmd ▸ hc)]
    rfl
  · rw [step_of_truncated hr (hcmd ▸ hne) (hcmd ▸ hd)]
    rfl
  · rw [step_of_illegal hr (hcmd ▸ hd)]
    exact respond_agree (agree_withCmd h rest) _ _
  · rw [step_of_decode hr (hcmd ▸ hd)]
    exact exec_agree i (s := { s with cmd := rest }) hinv (agree_withCmd h rest)

/-- Settles O39: every command sends one response, and its payload fits RLEN. -/
theorem oneResponsePerCommand : Obligations.OneResponsePerCommand := by
  intro i s
  obtain ⟨t, st, p, hexec, hrsp, hlen, hnil⟩ := exec_responds i s
  obtain ⟨u, hexec', hcmd, hreset⟩ := exec_completes i s
  obtain rfl : t = u := Host.Outcome.next.inj (hexec.symm.trans hexec')
  exact ⟨t, st, p, hexec, by rw [hrsp, responseBytes_eq st p (by omega)], hlen, hnil, hcmd, hreset⟩

/-- Settles O42: one case of the step for each row of R13's table. -/
theorem phaseTransitions : Obligations.PhaseTransitions := by
  intro s t hstep
  refine ⟨fun hr => ?_, fun hr why rest hd => ?_, fun hr v ln dlen tree key salt pers rest hd => ?_,
    fun hr data rest hd => ?_, fun hr rest hd => ?_, fun hr v f ln h block t0 t1 rest hd => ?_⟩
  · rw [step_of_held hr] at hstep
    cases hstep
    rfl
  · rw [step_of_illegal hr hd] at hstep
    cases hstep
    exact ⟨rfl, by rw [raise_rsp, responseBytes_empty]; rfl⟩
  · rw [step_of_decode hr hd] at hstep
    refine ⟨fun hin => ?_, fun hout => ?_⟩
    · rw [exec_new_installs hin] at hstep
      cases hstep
      exact ⟨rfl, by rw [respond_rsp, responseBytes_empty]; rfl⟩
    · rw [exec_new_refused hout] at hstep
      cases hstep
      exact ⟨rfl, by rw [raise_rsp, responseBytes_empty]; rfl⟩
  · rw [step_of_decode hr hd] at hstep
    refine ⟨fun hp => ?_, fun hp => ?_⟩
    · rw [exec_update_absorbs (s := { s with cmd := rest }) hp rfl] at hstep
      cases hstep
      exact ⟨hp, by rw [respond_rsp, responseBytes_empty]; rfl⟩
    · rw [exec_refused_outside (i := .update data) (s := { s with cmd := rest }) rfl hp] at hstep
      cases hstep
      exact ⟨rfl, by rw [raise_rsp, responseBytes_empty]; rfl⟩
  · rw [step_of_decode hr hd] at hstep
    refine ⟨fun hp => ?_, fun hp => ?_⟩
    · rw [exec_finalize_closes (s := { s with cmd := rest }) hp rfl] at hstep
      cases hstep
      exact ⟨rfl, _, by rw [respond_rsp, responseBytes_digest]⟩
    · rw [exec_refused_outside (i := .finalize) (s := { s with cmd := rest }) rfl hp] at hstep
      cases hstep
      exact ⟨rfl, by rw [raise_rsp, responseBytes_empty]; rfl⟩
  · rw [step_of_decode hr hd, exec_compress] at hstep
    cases hstep
    refine ⟨rfl, wordsToBytes (compress v h block t0 t1 f ln).toList, ?_⟩
    rw [responseOf, stateBytes_length]

/-- Settles O43: UPDATE and FINALIZE write none of the three, an error and COMPRESS write no register. -/
theorem onlyNewWritesParameters : Obligations.OnlyNewWritesParameters := by
  intro i s t hexec hi
  obtain ⟨_, _, _, _, _, _, _, rfl, _, _⟩ | ⟨_, _, _, _, _, _, _, rfl, _, _⟩ | ⟨data, rfl, _, e⟩ | ⟨rfl, _, e⟩ |
    ⟨hneeds, _, e⟩ | ⟨_, _, _, _, _, _, _, rfl, e⟩ := exec_cases i s
  · cases hi
  · cases hi
  · rw [e] at hexec
    cases hexec
    obtain ⟨hout, hlast, -⟩ := absorb_keeps s.ctx.regs data
    exact ⟨rfl, hout, hlast, fun h => by cases h⟩
  · rw [e] at hexec
    cases hexec
    exact ⟨rfl, rfl, rfl, fun h => by cases h⟩
  · rw [e] at hexec
    cases hexec
    exact ⟨rfl, rfl, rfl, fun _ => ⟨rfl, rfl⟩⟩
  · rw [e] at hexec
    cases hexec
    exact ⟨rfl, rfl, rfl, fun _ => ⟨rfl, rfl⟩⟩

/-- Settles O44: by induction on the commands; each leaves the context and `PHASE`, so the next is outside ABSORBING
too. -/
theorem onlyNewRevives : Obligations.OnlyNewRevives := by
  intro is s hp hnone
  induction is generalizing s with
  | nil => exact ⟨s, rfl, rfl, rfl⟩
  | cons i is ih =>
    obtain ⟨t, hexec, hctx, hphase⟩ := exec_outside (hnone i List.mem_cons_self) hp
    obtain ⟨u, hrun, hctx', hphase'⟩ := ih t (hphase ▸ hp) fun j hj => hnone j (List.mem_cons_of_mem i hj)
    exact ⟨u, (execAll_cons_next hexec is).trans hrun, hctx'.trans hctx, hphase'.trans hphase⟩

/-- Settles O37: the command's equation. -/
theorem compressAnswers : Obligations.CompressAnswers := exec_compress

/-- Settles O46: no cell is listed, and no hasher is in progress. -/
theorem resetMeetsInvariant : Obligations.ResetMeetsInvariant := ⟨reset_memory_wf, fun h => by cases h⟩

end Sys2Proof
end
